-- ==== Sys2Proof/Word.lean ====
section
/-! DEFINITION. The value types of the machine: a trit, and a word of ten trits.

Spec: 00_scope.md R3 (`END_VALUE = 59049`), R4 (the domain `0..59048`), section 6 (digits are `0..2`, digit 0 the
least significant; everything is unsigned), 92_eei_decisions.md D1 (a word is the integer, no binary packing). -/

namespace Sys2Proof

/-- One base-3 digit (00_scope.md, glossary "Trit"). -/
abbrev Trit := Fin 3

/-- The spec's `Value` (R4): an integer `0..59048`. Every register, every memory word and every address is one. -/
abbrev Value := Fin 59049

/-- The `Value` congruent to `n` modulo `END_VALUE` (R3: `END_VALUE` is "the modulus for address/register
wraparound"). -/
def wrap (n : Nat) : Value := ⟨n % 59049, Nat.mod_lt n (by decide)⟩

@[simp] theorem wrap_val (n : Nat) : (wrap n).val = n % 59049 := rfl

theorem wrap_of_val (x : Value) : wrap x.val = x := Fin.ext (Nat.mod_eq_of_lt x.isLt)

/-- A character of a program text, as its code point (30_encoding.md R67, D5; log 17). -/
abbrev CodePoint := Nat

end Sys2Proof
end

