-- ==== Sys2Proof/Config.lean ====
section
/-! DEFINITION. The parameters that the spec fixes (00_scope.md R2, R3) and the one value that it leaves open
(60_exceptions.md R155, 93_implementation_defined.md U3). -/

namespace Sys2Proof

/-- `BASE`, the numeral base of a digit (R2, D21: fixed). -/
def Config.base : Nat := 3

/-- `DIGITS`, the digits of a word (R2, D21: fixed). -/
def Config.digits : Nat := 10

/-- `END_VALUE = BASE^DIGITS` (R3): the number of memory words and the modulus of `increment`. -/
def Config.endValue : Nat := 59049

/-- `MAX_VALUE = END_VALUE − 1` (R3): the largest value, the end-of-input sentinel and the end-of-output trigger. -/
def Config.maxValue : Value := ⟨59048, by decide⟩

theorem Config.endValue_eq : Config.endValue = Config.base ^ Config.digits := rfl

theorem Config.maxValue_eq : Config.maxValue.val = Config.endValue - 1 := rfl

@[simp] theorem Config.maxValue_val : Config.maxValue.val = 59048 := rfl

/-- FREE VALUE (log 4). Whether the accumulator keeps its old value (first argument) when the IN instruction raises a
RangeError on the input element (second argument); otherwise it holds `MAX_VALUE`. R155: "`A` is unspecified, being
either its old value or `MAX_VALUE`". It has no body, so nothing can be proved about which of the two it is. -/
opaque Config.rangeErrorKeepsA : Value → Int → Bool

end Sys2Proof
end

