-- ==== Sys2Proof/Syntax.lean ====
section
/-! DEFINITION. The instruction set: one constructor for each row of spec/opcode_table.json (30_encoding.md R63).

No instruction has an operand field (R62). The labels are the spec's own (92_eei_decisions.md D17); the source names
each instruction by its character only. -/

namespace Sys2Proof

/-- One instruction. -/
inductive Instr where
  /-- `!`, word 33, HALT (42_control.md R120). -/
  | halt
  /-- `*`, word 42, LOADD (43_data.md R130). -/
  | loadd
  /-- `>`, word 62, ROT (43_data.md R131). -/
  | rot
  /-- `^`, word 94, JUMP (42_control.md R121). -/
  | jump
  /-- `_`, word 95, NOP (42_control.md R122). -/
  | nop
  /-- The left brace, word 123, OUT (44_io.md R140); the table's row `ROW`. -/
  | out
  /-- `|`, word 124, SUB (43_data.md R132). -/
  | sub
  /-- The right brace, word 125, IN (44_io.md R141); the table's row `ROW_2`. -/
  | inp
  /-- Any of the other 59041 words `w`, a no-operation (42_control.md R123); the table's row `(other)`. -/
  | other (w : Value)
  deriving DecidableEq, Repr

end Sys2Proof
end

