-- ==== Sys2Proof/WellFormed.lean ====
section
/-! DEFINITION. Which instruction terms stand for words of the machine. The one check: the default row of the opcode
map holds no word of the eight exact rows (30_encoding.md R63, R65; 42_control.md R123). -/

namespace Sys2Proof

/-- The eight words of 30_encoding.md R63's map, in its order. -/
def commandWords : List Value := [33, 42, 62, 94, 95, 123, 124, 125]

/-- A term is well formed when, if it is of the default row, its word is none of the eight command words. -/
def Instr.wf : Instr → Bool
  | .other w => !commandWords.contains w
  | .halt => true
  | .loadd => true
  | .rot => true
  | .jump => true
  | .nop => true
  | .out => true
  | .sub => true
  | .inp => true

end Sys2Proof
end

