-- ==== Sys2Proof/Decode.lean ====
section
/-! DEFINITION. Decoding, encoding and printing of instruction words (30_encoding.md R60 to R66, R76).

A word is decoded by equality of all its ten trits with one of eight constants (R61); every other word decodes to the
default row, so the decoder is total and refuses nothing (R65). -/

namespace Sys2Proof

/-- The instruction of a fetched word: R63's map, with R65's default. -/
def decode (w : Value) : Instr :=
  if w.val = 33 then .halt
  else if w.val = 42 then .loadd
  else if w.val = 62 then .rot
  else if w.val = 94 then .jump
  else if w.val = 95 then .nop
  else if w.val = 123 then .out
  else if w.val = 124 then .sub
  else if w.val = 125 then .inp
  else .other w

/-- The word of an instruction (R63, the column "word value"). -/
def encode : Instr → Value
  | .halt => ⟨33, by decide⟩
  | .loadd => ⟨42, by decide⟩
  | .rot => ⟨62, by decide⟩
  | .jump => ⟨94, by decide⟩
  | .nop => ⟨95, by decide⟩
  | .out => ⟨123, by decide⟩
  | .sub => ⟨124, by decide⟩
  | .inp => ⟨125, by decide⟩
  | .other w => w

/-- The value of ten trits written most significant first, as the opcode map writes its words (R63, R60). -/
def wordOfTrits (ts : List Trit) : Value := wrap (ts.foldl (fun n t => 3 * n + t.val) 0)

/-- What a printer shows for a word (R76): the character of a command word, the decimal value of any other word. -/
inductive Spelling where
  /-- The character with this code point. -/
  | character (c : CodePoint)
  /-- A decimal numeral. -/
  | decimal (n : Nat)
  deriving DecidableEq, Repr

/-- R76: "a word equal to one of the eight code points prints as its character; any other word ... as its decimal
value". -/
def printWord (w : Value) : Spelling :=
  if commandWords.contains w then .character w.val else .decimal w.val

/-- What the decoder reads from the word numbered `w`. spec/opcode_table.json gives a row's word as the decimal value
of its ten trits ("match") and numbers no bits, so `w` is that value and `nbits` has no part in it (log 9); a number
that is no `Value` is no word of the machine. -/
def decodeTableWord (_nbits w : Nat) : Option Instr :=
  if w < 59049 then some (decode (wrap w)) else none

end Sys2Proof
end

