-- ==== Sys2Proof/Machine/State.lean ====
section
/-! DEFINITION. The state of one machine instance (10_state.md R20), the reasons a call can stop, and the state after
reset (10_state.md R32). -/

namespace Sys2Proof.Machine

/-- One listed word of memory: its address and its value (20_memory.md R40, R42: the word is the smallest unit, so a
cell holds a word where another machine's would hold a byte; log 1). -/
abbrev Cell := Value × Value

/-- The 59049 words of memory as a sparse list: addresses strictly rising, and no entry that holds what an unlisted
address reads as (`Memory.wf` in Machine/Ops.lean). -/
abbrev Memory := List Cell

/-- The errors that a step or an arithmetic function can raise. -/
inductive Fault where
  /-- RangeError (60_exceptions.md R153). Raised by the domain-checked setters and by the arithmetic functions on an
  out-of-domain argument; inside a step only IN can meet one, on an input element outside `0..59048` (R154). IN takes
  it as R155 says: a next state that carries it in the marker `State.fault`. No step answers `Outcome.fault`, so
  nothing is cut short by it. Safe: the error is the spec's own, and it is never clamped away. -/
  | rangeError
  deriving DecidableEq, Repr

/-- Why a call is given no meaning. -/
inductive Refusal where
  /-- An instruction without a meaning in this model. No arm of `exec` answers with it: all nine rows have one. Safe. -/
  | notModelled (mnemonic : String)
  /-- A `step()` called on a machine whose `fault` marker is set. 60_exceptions.md R161: it "has no defined result and
  a model should refuse it". Raised by the instruction cycle, never by an instruction. Safe: nothing is claimed. -/
  | steppedAfterFault
  /-- The host presents an `inputBuffer` element outside `0..59048` in the default (typed) interface, which has no such
  move (92_eei_decisions.md D6). Raised by the host move only (log 3). Safe: nothing is claimed. -/
  | inputOutOfDomain
  /-- A program text holds, outside a comment, a character whose membership in the whitespace set the spec leaves open
  (30_encoding.md R69: "a model should refuse to give such a text a meaning rather than guess"). Raised by the loader
  only (log 10). Safe: nothing is claimed. -/
  | whitespaceOpen (c : CodePoint)
  deriving DecidableEq, Repr

/-- The state of a machine instance: "exactly these seven components and nothing else" (R20), and the spec's `fault`
marker (R20, 60_exceptions.md R155). -/
structure State where
  /-- The accumulator (R21). -/
  A : Value
  /-- The control pointer, which is the program counter (R22). -/
  C : Value
  /-- The data pointer (R23). -/
  D : Value
  /-- The halt flag (R25). -/
  halt : Bool
  /-- Memory, shared by code and data (R28). -/
  memory : Memory
  /-- The input queue, front first (R29). Integers hold both variants of D6: in the default one every element is a
  `Value` (log 3). -/
  inputBuffer : List Int
  /-- The output queue, oldest first (R30). -/
  outputBuffer : List Value
  /-- The error that aborted a step, if one did (60_exceptions.md R155). -/
  fault : Option Fault
  deriving DecidableEq, Repr

/-- The machine right after a construction from the empty program text: R32's table with `n = 0` (30_encoding.md R73:
the empty text is a valid program whose memory is all 0). A program is placed by `construct` in Machine/Loader.lean,
the one reset there is (70_reset_and_hazards.md R180; log 8). -/
def State.reset : State where
  A := 0
  C := 0
  D := 0
  halt := false
  memory := []
  inputBuffer := []
  outputBuffer := []
  fault := none

end Sys2Proof.Machine
end

