-- ==== Sys2Proof/Machine/Arith.lean ====
section
/-! DEFINITION. The arithmetic units (40_arithmetic_units.md): domain check, increment, digit rotation, borrow-free
subtraction. Each is a pure total function (R90). The functions on `Value` cannot fail; the functions that end in
`Checked` take untyped integers, test `isInDomain` first and fail with RangeError (R100). -/

namespace Sys2Proof.Machine

/-- `isInDomain(x)` (R91): `0 ≤ x ≤ BASE^DIGITS − 1`. Non-integral numbers are excluded by typing (D19). -/
def isInDomain (x : Int) : Bool := decide (0 ≤ x) && decide (x ≤ 59048)

/-- `digit_i(x) = floor(x / 3^i) mod 3` (00_scope.md section 6). -/
def digit (i : Nat) (x : Value) : Trit := ⟨x.val / 3 ^ i % 3, Nat.mod_lt _ (by decide)⟩

/-- The number whose lowest `n` digits are `f 0 .. f (n−1)`: the sum of `f i * 3^i` (00_scope.md section 6). -/
def fromDigits (f : Nat → Trit) : Nat → Nat
  | 0 => 0
  | n + 1 => fromDigits f n + (f n).val * 3 ^ n

/-- `n` digits make a number below `3^n`; with `n = 10` this is the closure of R101. -/
theorem fromDigits_lt (f : Nat → Trit) (n : Nat) : fromDigits f n < 3 ^ n := by
  induction n with
  | zero => simp [fromDigits]
  | succ n ih =>
    have hf : (f n).val ≤ 2 := by have := (f n).isLt; omega
    have := Nat.mul_le_mul_right (3 ^ n) hf
    simp only [fromDigits, Nat.pow_succ]
    omega

/-- `increment(x, y) = (x + y) mod END_VALUE` (R92); `y` is a natural number (D11). -/
def incrementBy (x : Value) (y : Nat) : Value := wrap (x.val + y)

/-- `increment(x)`, with the default `y = 1` (R92): the only form the machine uses. -/
def increment (x : Value) : Value := incrementBy x 1

/-- The closed form of R93: `floor(x / 3) + (x mod 3) * 19683`. -/
def rotateRight (x : Value) : Value :=
  ⟨x.val / 3 + x.val % 3 * 19683, by have := x.isLt; omega⟩

/-- `rotateRight(x, y)`: the one-step rotation `y` times (R95). No instruction uses another count than 1. -/
def rotateRightBy (x : Value) : Nat → Value
  | 0 => x
  | y + 1 => rotateRight (rotateRightBy x y)

/-- The inverse of one rotation that R96 (a) gives: `(r mod 19683) * 3 + floor(r / 19683)`. No instruction computes
it. -/
def rotateLeft (r : Value) : Value :=
  ⟨r.val % 19683 * 3 + r.val / 19683, by have := r.isLt; omega⟩

/-- The one-trit cell of the subtraction unit (R99, R103): `(3 + a − b) mod 3`. -/
def tritSub (a b : Trit) : Trit := ⟨(3 + a.val - b.val) % 3, Nat.mod_lt _ (by decide)⟩

/-- `subtract(x, y)` (R97): digit-wise subtraction with no borrow between digits; `x` is the minuend. -/
def subtract (x y : Value) : Value :=
  ⟨fromDigits (fun i => tritSub (digit i x) (digit i y)) 10, fromDigits_lt _ 10⟩

/-- The recursive form `sub_n` of R98, which peels the lowest digit at each step. -/
def subtractPeeling : Nat → Nat → Nat → Nat
  | 0, _, _ => 0
  | n + 1, x, y => (3 + x % 3 - y % 3) % 3 + 3 * subtractPeeling n (x / 3) (y / 3)

/-- The guard in front of every register and memory setter and every arithmetic function (R91, R100; 10_state.md R24):
the `Value` of an in-domain integer, RangeError for any other, never a clamped or wrapped value. -/
def checkDomain (x : Int) : Except Fault Value :=
  if isInDomain x then .ok (wrap x.toNat) else .error .rangeError

/-- `increment` on an untyped integer (R100); its second argument is not checked (R92). -/
def incrementChecked (x : Int) (y : Nat) : Except Fault Value :=
  match checkDomain x with
  | .ok v => .ok (incrementBy v y)
  | .error e => .error e

/-- `rotateRight` on an untyped integer (R100). -/
def rotateRightChecked (x : Int) (y : Nat) : Except Fault Value :=
  match checkDomain x with
  | .ok v => .ok (rotateRightBy v y)
  | .error e => .error e

/-- `subtract` on untyped integers (R100: it fails when either argument is out of domain). -/
def subtractChecked (x y : Int) : Except Fault Value :=
  match checkDomain x, checkDomain y with
  | .ok v, .ok w => .ok (subtract v w)
  | .error e, _ => .error e
  | _, .error e => .error e

end Sys2Proof.Machine
end

