-- ==== Sys2Proof/Machine/Ops.lean ====
section
/-! DEFINITION. The named operations over memory, registers and queues, the common advance of a step, and the taking
of a RangeError. Every read and write of the state by a meaning goes through one of these. -/

namespace Sys2Proof.Machine

/-! ## Memory (20_memory.md R40, R41) -/

/-- What an address that the list does not hold reads as: 0, the spec's reset value of every word that the program
does not fill (10_state.md R32, 30_encoding.md R73). -/
def blankWord : Value := 0

/-- The canonical form: addresses strictly rising and no listed word that equals the blank word, so that equal
memories are equal lists. -/
abbrev Memory.wf (m : Memory) : Prop :=
  m.Pairwise (fun c d => c.1 < d.1) ∧ m.all (fun c => c.2 != blankWord) = true

/-- `MemRead(a)` (R41): total, no effect. -/
def Memory.read : Memory → Value → Value
  | [], _ => blankWord
  | (b, w) :: m, a => if b = a then w else Memory.read m a

/-- The memory without an entry for the address `a`. -/
def Memory.erase : Memory → Value → Memory
  | [], _ => []
  | (b, w) :: m, a => if b = a then Memory.erase m a else (b, w) :: Memory.erase m a

/-- The memory with the entry `(a, v)` put in its place; `a` is not yet listed. -/
def Memory.place : Memory → Value → Value → Memory
  | [], a, v => [(a, v)]
  | (b, w) :: m, a, v => if a < b then (a, v) :: (b, w) :: m else (b, w) :: Memory.place m a v

/-- `MemWrite(a, v)` for a `Value` (R41): the word at `a` becomes `v`, no other word changes. Writing the blank word
removes the entry, which keeps the canonical form. -/
def Memory.write (m : Memory) (a v : Value) : Memory :=
  if v = blankWord then m.erase a else (m.erase a).place a v

/-- The words `image` from the address `i` upward, nothing else listed (R73). Words that would lie past the last
address are left out; the loader never passes any (R71). -/
def Memory.ofImage : Nat → List Value → Memory
  | _, [] => []
  | i, v :: vs =>
    if i < 59049 then
      if v = blankWord then Memory.ofImage (i + 1) vs else (wrap i, v) :: Memory.ofImage (i + 1) vs
    else []

/-- The word at an address. -/
def readWord (a : Value) (s : State) : Value := s.memory.read a

/-- The state with the word at an address replaced. -/
def storeWord (a v : Value) (s : State) : State := { s with memory := s.memory.write a v }

/-- `MemRead(C)`: the fetch of every step (41_instruction_cycle.md R112). -/
def fetchWord (s : State) : Value := readWord s.C s

/-! ## Registers (10_state.md R21 to R24) -/

/-- `A <- v` for a `Value`. -/
def setA (v : Value) (s : State) : State := { s with A := v }

/-- `C <- v` for a `Value`. -/
def setC (v : Value) (s : State) : State := { s with C := v }

/-- `D <- v` for a `Value`. -/
def setD (v : Value) (s : State) : State := { s with D := v }

/-- `A <- x` for an untyped integer: the domain-checked setter (R24), which writes nothing when it fails. -/
def assignA (x : Int) (s : State) : Except Fault State :=
  match checkDomain x with
  | .ok v => .ok (setA v s)
  | .error e => .error e

/-- `C <- x` for an untyped integer (R24). -/
def assignC (x : Int) (s : State) : Except Fault State :=
  match checkDomain x with
  | .ok v => .ok (setC v s)
  | .error e => .error e

/-- `D <- x` for an untyped integer (R24). -/
def assignD (x : Int) (s : State) : Except Fault State :=
  match checkDomain x with
  | .ok v => .ok (setD v s)
  | .error e => .error e

/-- `MemWrite(a, x)` for an untyped integer (20_memory.md R41), which writes nothing when it fails. -/
def assignWord (a : Value) (x : Int) (s : State) : Except Fault State :=
  match checkDomain x with
  | .ok v => .ok (storeWord a v s)
  | .error e => .error e

/-! ## Queues (10_state.md R29, R30) -/

/-- `inputBuffer.popFront()`: the front element and the state without it; none when the queue is empty (R29). -/
def takeInput (s : State) : Option (Int × State) :=
  match s.inputBuffer with
  | [] => none
  | x :: xs => some (x, { s with inputBuffer := xs })

/-- `outputBuffer.append(v)` (R30). -/
def appendOutput (v : Value) (s : State) : State := { s with outputBuffer := s.outputBuffer ++ [v] }

/-! ## The advance, and the taking of an error -/

/-- The common advance of a step (41_instruction_cycle.md R114): `C` and `D` are incremented independently of each
other, from the values that the execute phase left. -/
def advance (s : State) : State := { s with C := increment s.C, D := increment s.D }

/-- Taking a RangeError (60_exceptions.md R155, R160), in the state after the offending element `x` was removed from
the input queue: the marker is set, `A` is either its old value or `MAX_VALUE` (a free value, log 4), and nothing else
changes: no advance, nothing saved, no handler. There is no return from it (R161). -/
def takeRangeError (e : Fault) (x : Int) (s : State) : State :=
  { s with A := if Config.rangeErrorKeepsA s.A x then s.A else Config.maxValue, fault := some e }

end Sys2Proof.Machine
end

