-- ==== Sys2Proof/Machine/Operands.lean ====
section
/-! DEFINITION. The operand forms. There is one addressing mode, register-indirect through `D` (20_memory.md R53);
every other operand is a register, a queue end or the constant `MAX_VALUE` (30_encoding.md R62), reached by the
operations of Machine/Ops.lean. -/

namespace Sys2Proof.Machine

/-- The data operand `memory[D]`, read with `D` as it is before the advance (41_instruction_cycle.md R117 (b)). -/
def memoryOperand (s : State) : Value := readWord s.D s

/-- The address that ROT and SUB store to: `D` before the advance. -/
def operandAddress (s : State) : Value := s.D

/-- `A <- v` and `MemWrite(D, v)`: the two writes of ROT and SUB, of the same value (R117 (d), D18). -/
def storeResult (v : Value) (s : State) : State := storeWord (operandAddress s) v (setA v s)

end Sys2Proof.Machine
end

