-- ==== Sys2Proof/Machine/Flags.lean ====
section
/-! DEFINITION. The one flag, `halt` (10_state.md R25). There are no condition codes, and no instruction records a
carry, borrow, zero, sign or overflow (R26). -/

namespace Sys2Proof.Machine

/-- `halt <- true`. There is no operation that clears the flag (R25). -/
def setHalt (s : State) : State := { s with halt := true }

/-- Whether OUT halts instead of emitting: `A = MAX_VALUE` (R25, 44_io.md R140). -/
def endOfOutput (s : State) : Bool := decide (s.A = Config.maxValue)

end Sys2Proof.Machine
end

