-- ==== Sys2Proof/Machine/Control.lean ====
section
/-! DEFINITION. The control instructions: `!`, `^`, `_` and every other word (42_control.md). -/

namespace Sys2Proof.Machine

/-- `!` HALT (R120): `halt <- true`; the advance is skipped. -/
def execHalt (s : State) : Host.Outcome State Fault Refusal := .next (setHalt s)

/-- `^` JUMP (R121): `C <- memory[D]`, then the advance, so execution continues one past the word loaded. -/
def execJump (s : State) : Host.Outcome State Fault Refusal := .next (advance (setC (memoryOperand s) s))

/-- `_` NOP (R122): nothing but the advance. -/
def execNop (s : State) : Host.Outcome State Fault Refusal := .next (advance s)

/-- Any other word (R123): nothing but the advance. -/
def execOther (s : State) : Host.Outcome State Fault Refusal := .next (advance s)

end Sys2Proof.Machine
end

