-- ==== Sys2Proof/Machine/Data.lean ====
section
/-! DEFINITION. The data instructions: `*`, `>` and `|` (43_data.md). -/

namespace Sys2Proof.Machine

/-- `*` LOADD (R130): `D <- memory[D]`, then the advance, which increments the loaded value. -/
def execLoadd (s : State) : Host.Outcome State Fault Refusal := .next (advance (setD (memoryOperand s) s))

/-- `>` ROT (R131): `A` and `memory[D]` both become `rotateRight(memory[D])`, then the advance. -/
def execRot (s : State) : Host.Outcome State Fault Refusal :=
  .next (advance (storeResult (rotateRight (memoryOperand s)) s))

/-- `|` SUB (R132): `A` and `memory[D]` both become `subtract(A, memory[D])`, then the advance. -/
def execSub (s : State) : Host.Outcome State Fault Refusal :=
  .next (advance (storeResult (subtract s.A (memoryOperand s)) s))

end Sys2Proof.Machine
end

