-- ==== Sys2Proof/Machine/Io.lean ====
section
/-! DEFINITION. The input and output instructions (44_io.md). -/

namespace Sys2Proof.Machine

/-- OUT, word 123 (R140): with `A = MAX_VALUE` it halts, without append and without advance; otherwise it appends the
whole of `A` and advances. -/
def execOut (s : State) : Host.Outcome State Fault Refusal :=
  if endOfOutput s then .next (setHalt s) else .next (advance (appendOutput s.A s))

/-- IN, word 125 (R141): `A` becomes `MAX_VALUE` when the queue is empty, else the element removed from its front. An
element outside the domain fails at the setter of `A` and the RangeError is taken: no advance
(60_exceptions.md R155). -/
def execInp (s : State) : Host.Outcome State Fault Refusal :=
  match takeInput s with
  | none => .next (advance (setA Config.maxValue s))
  | some (x, popped) =>
    match assignA x popped with
    | .ok assigned => .next (advance assigned)
    | .error e => .next (takeRangeError e x popped)

end Sys2Proof.Machine
end

