-- ==== Sys2Proof/Machine/Dispatch.lean ====
section
/-! DEFINITION. The dispatch (41_instruction_cycle.md R113): exactly one arm is taken, one for each row of the opcode
table. -/

namespace Sys2Proof.Machine

/-- The execute phase and the advance of one instruction (R110 without the halted test and the fetch). -/
def exec (i : Instr) (s : State) : Host.Outcome State Fault Refusal :=
  match i with
  | .halt => Sys2Proof.Machine.execHalt s
  | .loadd => Sys2Proof.Machine.execLoadd s
  | .rot => Sys2Proof.Machine.execRot s
  | .jump => Sys2Proof.Machine.execJump s
  | .nop => Sys2Proof.Machine.execNop s
  | .out => Sys2Proof.Machine.execOut s
  | .sub => Sys2Proof.Machine.execSub s
  | .inp => Sys2Proof.Machine.execInp s
  | .other _ => Sys2Proof.Machine.execOther s

end Sys2Proof.Machine
end

