-- ==== Sys2Proof/Machine/Cycle.lean ====
section
/-! DEFINITION. The instruction cycle (41_instruction_cycle.md R110 to R117): halted test, fetch, dispatch. -/

namespace Sys2Proof.Machine

/-- One call of `step()` (R110). A halted machine is left as it is, whatever else holds (R111; 60_exceptions.md R159:
"halt already true" is tested first). A faulted machine has no further step (60_exceptions.md R161). Otherwise the
word at `memory[C]` is fetched, decoded and executed (R112, R113). -/
def cycle (s : State) : Host.Outcome State Fault Refusal :=
  if s.halt then .next s
  else
    match s.fault with
    | some _ => .refused .steppedAfterFault
    | none => exec (decode (fetchWord s)) s

/-- The state in which the next step runs the word numbered `w`: the word stands at `memory[C]`, and the machine is
neither halted nor faulted, since only such a machine fetches. It stands for the host's load (log 8); a number that is
no `Value` changes nothing (log 9). -/
def placeFetchWord (s : State) (w : Nat) : State :=
  if w < 59049 then { storeWord s.C (wrap w) s with halt := false, fault := none } else s

end Sys2Proof.Machine
end

