-- ==== Sys2Proof/Machine/Step.lean ====
section
/-! DEFINITION. The machine's one transition, and the placing of a word where it fetches. Both only call
Machine/Cycle.lean. -/

namespace Sys2Proof.Machine

/-- One call of `step()` (41_instruction_cycle.md R110). -/
def step (s : State) : Host.Outcome State Fault Refusal := cycle s

/-- `s` with the word numbered `w` where the next step fetches (`placeFetchWord`). -/
def State.withFetchWord (s : State) (_nbits w : Nat) : State := placeFetchWord s w

end Sys2Proof.Machine
end

