-- ==== Sys2Proof/Machine/HostMoves.lean ====
section
/-! DEFINITION. What the host may do between steps (10_state.md R31, 20_memory.md R49), and runs (R118 of
41_instruction_cycle.md). No move lands inside a step (R116). -/

namespace Sys2Proof.Machine

/-- A host move that changes the state (R31). Construction is `construct`; every other interaction only reads. -/
inductive HostMove where
  /-- Replace or edit `inputBuffer`: the new sequence. -/
  | writeInput (xs : List Int)
  /-- Clear `outputBuffer`. -/
  | clearOutput
  deriving DecidableEq, Repr

/-- One host move, between two steps. `untyped` is the parameter `untypedInput` of D6: in the default interface an
out-of-domain element cannot be presented, so that move is refused. A move is allowed on a halted machine too (D22). -/
def hostMove (untyped : Bool) (mv : HostMove) (s : State) : Host.Outcome State Fault Refusal :=
  match mv with
  | .writeInput xs =>
    if untyped || xs.all isInDomain then .next { s with inputBuffer := xs } else .refused .inputOutOfDomain
  | .clearOutput => .next { s with outputBuffer := [] }

/-- What the host can read between steps (R31, 60_exceptions.md R168). Memory is not among it (R28, D2). -/
structure HostView where
  /-- The accumulator, for diagnostics. -/
  A : Value
  /-- The control pointer, for diagnostics. -/
  C : Value
  /-- The data pointer, for diagnostics. -/
  D : Value
  /-- The halt flag. -/
  halt : Bool
  /-- The input queue. -/
  inputBuffer : List Int
  /-- The output queue. -/
  outputBuffer : List Value
  deriving DecidableEq, Repr

/-- The host's reading of a state. -/
def hostView (s : State) : HostView :=
  { A := s.A, C := s.C, D := s.D, halt := s.halt, inputBuffer := s.inputBuffer, outputBuffer := s.outputBuffer }

/-- What can happen next to a machine instance (R118): a call of `step()`, or a host move. -/
inductive Event where
  /-- The host calls `step()`. -/
  | step
  /-- The host makes a move. -/
  | host (mv : HostMove)
  deriving DecidableEq, Repr

/-- The effect of one event. -/
def event (untyped : Bool) (e : Event) (s : State) : Host.Outcome State Fault Refusal :=
  match e with
  | .step => step s
  | .host mv => hostMove untyped mv s

/-- A run: the events in their order, up to the first that is given no meaning (R118). -/
def run (untyped : Bool) : List Event → State → Host.Outcome State Fault Refusal
  | [], s => .next s
  | e :: es, s =>
    match event untyped e s with
    | .next t => run untyped es t
    | .fault f => .fault f
    | .refused r => .refused r

end Sys2Proof.Machine
end

