-- ==== Sys2Proof/Machine/Loader.lean ====
section
/-! DEFINITION. Construction from a program text: the loader (30_encoding.md R67 to R74) and the reset sequence
(70_reset_and_hazards.md R180, R181). -/

namespace Sys2Proof.Machine

/-- The three causes of a SyntaxError (60_exceptions.md R151). -/
inductive SyntaxError where
  /-- "not a valid instruction". -/
  | invalidCharacter
  /-- "program too long". -/
  | programTooLong
  /-- "unterminated comment". -/
  | unterminatedComment
  deriving DecidableEq, Repr

/-- The result of loading or constructing: a value, a syntax error (then "no Machine is produced", R152), or a refusal
to give the text a meaning. -/
inductive Loaded (α : Type) where
  /-- The text loads. -/
  | ok (a : α)
  /-- The first syntax error in scan order. -/
  | syntaxError (e : SyntaxError)
  /-- The text's meaning depends on a point the spec leaves open. -/
  | refused (r : Refusal)
  deriving DecidableEq, Repr

/-- The six characters of the default `WS` (R69): tab, line feed, vertical tab, form feed, carriage return, space. -/
def defaultWhitespace : List CodePoint := [9, 10, 11, 12, 13, 32]

/-- The parameter `WS` at its default value (R69): the six characters are whitespace, no other character is. -/
def defaultWs (c : CodePoint) : Option Bool := some (defaultWhitespace.contains c)

/-- What is known of `WS` when its value is not given (92_eei_decisions.md D4; log 10): `some true` for the six
characters; `some false` for the ASCII letters, digits and punctuation (U+0021 to U+007E, the command characters and
the parentheses among them); `none` for every other character, an ASCII control or a non-ASCII one. -/
def knownWs (c : CodePoint) : Option Bool :=
  if defaultWhitespace.contains c then some true else if 33 ≤ c ∧ c ≤ 126 then some false else none

/-- The word of a command character, its code point (R70, R63). -/
def commandWord (c : CodePoint) : Option Value := commandWords.find? (fun w => w.val == c)

/-- The loop of R74's algorithm over the rest of the text, with the inside-comment flag and the image built so far.
`ws` is the parameter `WS`, with the answer `none` for a character that it leaves undecided. -/
def scan (ws : CodePoint → Option Bool) : Bool → List Value → List CodePoint → Loaded (List Value)
  | true, _, [] => .syntaxError .unterminatedComment
  | false, image, [] => .ok image
  | true, image, c :: cs => if c = 41 then scan ws false image cs else scan ws true image cs
  | false, image, c :: cs =>
    if c = 40 then scan ws true image cs
    else
      match ws c with
      | some true => scan ws false image cs
      | none => .refused (.whitespaceOpen c)
      | some false =>
        match commandWord c with
        | some w =>
          if image.length = 59049 then .syntaxError .programTooLong else scan ws false (image ++ [w]) cs
        | none => .syntaxError .invalidCharacter

/-- `load(text)` (R74): the program image; the flag starts false (R67). -/
def load (ws : CodePoint → Option Bool) (text : List CodePoint) : Loaded (List Value) := scan ws false [] text

/-- The reset state with a program image (10_state.md R32, R73). -/
def resetWith (image : List Value) : State := { State.reset with memory := Memory.ofImage 0 image }

/-- `construct(text)` with the parameter `WS` as an argument (R181): the loader, then the reset state with the image
and zeros above it. -/
def constructWith (ws : CodePoint → Option Bool) (text : List CodePoint) : Loaded State :=
  match load ws text with
  | .ok image => .ok (resetWith image)
  | .syntaxError e => .syntaxError e
  | .refused r => .refused r

/-- `construct(text)` without a value for `WS`: a text has a meaning only where D4 gives it one, under every `WS`. -/
def construct (text : List CodePoint) : Loaded State := constructWith knownWs text

end Sys2Proof.Machine
end

