-- ==== Sys2Proof/Machine/Result.lean ====
section
/-! DEFINITION. What a call of `step()` returns to the host (41_instruction_cycle.md R115, 60_exceptions.md R164). The
machine keeps no record of it (10_state.md R20), so it is read off the states before and after the call (log 6). -/

namespace Sys2Proof.Machine

/-- The four outcomes of a call (60_exceptions.md R164). -/
inductive StepKind where
  /-- (1) An instruction was executed, `C` and `D` were advanced. -/
  | advanced
  /-- (2) `!`, or OUT with `A = MAX_VALUE`, set `halt`. -/
  | haltedNow
  /-- (3) `halt` was true at the call, nothing changed. -/
  | alreadyHalted
  /-- (4) A RangeError aborted the step. -/
  | faulted
  deriving DecidableEq, Repr

/-- Which of the four outcomes the call of `step()` on `s` has; none for a call that has no meaning (R161). -/
def stepKind (s : State) : Option StepKind :=
  match step s with
  | .next t =>
    if s.halt then some .alreadyHalted
    else if t.halt then some .haltedNow
    else if t.fault.isSome then some .faulted
    else some .advanced
  | .fault _ => none
  | .refused _ => none

/-- The boolean that `step()` returns (R115): true for outcome (1), false for (2) and (3); (4) "returns neither". -/
def StepKind.result : StepKind → Option Bool
  | .advanced => some true
  | .haltedNow => some false
  | .alreadyHalted => some false
  | .faulted => none

end Sys2Proof.Machine
end

