-- ==== Sys2Proof/Safety.lean ====
section
/-! DEFINITION. What counts as a good state, in the terms the statements use (10_state.md R35). -/

namespace Sys2Proof.Machine

/-- The invariant of every state, in both interface variants: memory is canonical; every output element is an output
value, `0..59047` (R30, R35 (b)); a faulted machine is not halted (60_exceptions.md R155: "A faulted state is not a
final state: `halt` is still false"). -/
structure State.Inv (s : State) : Prop where
  /-- The memory's canonical form. -/
  memory : s.memory.wf
  /-- No output element is `MAX_VALUE`. -/
  output : ∀ v ∈ s.outputBuffer, v.val < 59048
  /-- The marker and the flag are not both set. -/
  notFinal : s.fault ≠ none → s.halt = false

/-- The invariant of the default interface (D6): every input element is a `Value`, and no RangeError was raised
(60_exceptions.md R154, R35 (d)). -/
structure State.Typed (s : State) : Prop where
  /-- Every input element is in the domain. -/
  input : ∀ x ∈ s.inputBuffer, isInDomain x = true
  /-- The marker is not set. -/
  noFault : s.fault = none

/-- Every address reads in `t` what it reads in `s`. -/
def SameMemory (s t : State) : Prop := ∀ a : Value, t.memory.read a = s.memory.read a

/-- Every address but `b` reads in `t` what it reads in `s`. -/
def SameMemoryBut (b : Value) (s t : State) : Prop := ∀ a : Value, a ≠ b → t.memory.read a = s.memory.read a

/-- Both pointers of `t` are those of `s`, incremented (41_instruction_cycle.md R114). -/
def Advanced (s t : State) : Prop := t.C.val = (s.C.val + 1) % 59049 ∧ t.D.val = (s.D.val + 1) % 59049

/-- Both queues, the flag and the marker of `t` are those of `s`. -/
def SameQueuesAndFlags (s t : State) : Prop :=
  t.inputBuffer = s.inputBuffer ∧ t.outputBuffer = s.outputBuffer ∧ t.halt = s.halt ∧ t.fault = s.fault

/-- Every word that memory can hold right after construction (R33). -/
def resetWords : List Nat := [0, 33, 42, 62, 94, 95, 123, 124, 125]

/-- The characters of a text that stand outside its comments, the parentheses of the comments left out (30_encoding.md
R68), read without building an image. -/
def outsideComments : Bool → List CodePoint → List CodePoint
  | _, [] => []
  | true, c :: cs => if c = 41 then outsideComments false cs else outsideComments true cs
  | false, c :: cs => if c = 40 then outsideComments true cs else c :: outsideComments false cs

/-- The command characters among the characters of a text (R70). -/
def commandsOf (cs : List CodePoint) : List CodePoint :=
  cs.filter fun c => [33, 42, 62, 94, 95, 123, 124, 125].contains c

/-- A whitespace parameter that keeps what D4 knows of `WS`: the six characters are in it, the ASCII letters, digits and
punctuation are not (92_eei_decisions.md D4). -/
def RespectsKnownWs (ws : CodePoint → Option Bool) : Prop := ∀ c b, knownWs c = some b → ws c = some b

/-- `(D − C) mod 59049`: the distance that only `*` and `^` change (70_reset_and_hazards.md R188). -/
def pointerDistance (s : State) : Nat := (s.D.val + 59049 - s.C.val) % 59049

end Sys2Proof.Machine
end

