-- ==== Sys2Proof/Certificates/Slice0/Obligations.lean ====
section
/-! DEFINITION. The statements for the provers. Each formalises rules of spec/; OBLIGATIONS.json says which. -/

open Sys2Proof Sys2Proof.Machine

/-! ## What each instruction does: its result, as a completion -/

/-- R120: the word 33 sets `halt` and changes nothing else; its step returns false, and so does every later one. -/
def Obligations.HaltSetsTheFlagAndNothingElse : Prop :=
  decode (wrap 33) = .halt ∧ (∀ s : State, exec .halt s = .next { s with halt := true }) ∧
  ∀ s : State, s.halt = false → s.fault = none → (s.memory.read s.C).val = 33 →
    step s = .next { s with halt := true } ∧ stepKind s = some .haltedNow ∧
    StepKind.haltedNow.result = some false ∧ step { s with halt := true } = .next { s with halt := true } ∧
    stepKind { s with halt := true } = some .alreadyHalted ∧ StepKind.alreadyHalted.result = some false

/-- R130: the word 42: `D <- memory[D]`, then the advance, so `D` lands one past the word loaded. -/
def Obligations.LoaddPointsOnePastTheWordLoaded : Prop :=
  decode (wrap 42) = .loadd ∧ ∀ s : State, exec .loadd s =
    .next { s with C := wrap (s.C.val + 1), D := wrap ((s.memory.read s.D).val + 1) }

/-- R121: the word 94: `C <- memory[D]`, then the advance, so execution lands one past the word loaded. -/
def Obligations.JumpLandsOnePastTheWordLoaded : Prop :=
  decode (wrap 94) = .jump ∧ ∀ s : State, exec .jump s =
    .next { s with C := wrap ((s.memory.read s.D).val + 1), D := wrap (s.D.val + 1) }

/-- R122: the word 95: the advance and nothing else. -/
def Obligations.NopOnlyAdvances : Prop :=
  decode (wrap 95) = .nop ∧ ∀ s : State, exec .nop s =
    .next { s with C := wrap (s.C.val + 1), D := wrap (s.D.val + 1) }

/-- R123: every word but the eight: the advance and nothing else. -/
def Obligations.OtherWordsOnlyAdvance : Prop :=
  (∀ w : Value, w ∉ commandWords → decode w = .other w) ∧ ∀ (w : Value) (s : State), exec (.other w) s =
    .next { s with C := wrap (s.C.val + 1), D := wrap (s.D.val + 1) }

/-- R131: the word 62: `A` and `memory[D]` receive the rotation of `memory[D]`; every other word, the queues, the flag
and the marker stay; both pointers advance. -/
def Obligations.RotRotatesTheWordAtD : Prop :=
  decode (wrap 62) = .rot ∧ ∀ s : State, ∃ t : State, exec .rot s = .next t ∧
    t.A.val = (s.memory.read s.D).val / 3 + (s.memory.read s.D).val % 3 * 19683 ∧
    t.memory.read s.D = t.A ∧ SameMemoryBut s.D s t ∧ Advanced s t ∧ SameQueuesAndFlags s t

/-- R132: the word 124: `A` and `memory[D]` receive the digit-wise difference, `A` being the minuend; every other word,
the queues, the flag and the marker stay; both pointers advance. -/
def Obligations.SubSubtractsTheWordAtDFromA : Prop :=
  decode (wrap 124) = .sub ∧ ∀ s : State, ∃ t : State, exec .sub s = .next t ∧
    (∀ i < 10, t.A.val / 3 ^ i % 3 = (3 + s.A.val / 3 ^ i % 3 - (s.memory.read s.D).val / 3 ^ i % 3) % 3) ∧
    t.memory.read s.D = t.A ∧ SameMemoryBut s.D s t ∧ Advanced s t ∧ SameQueuesAndFlags s t

/-- R140: the word 123: with `A = MAX_VALUE` it halts, with no append and no advance, and its step returns false;
otherwise the whole of `A` is appended, then the advance, and its step returns true. -/
def Obligations.OutAppendsTheAccumulatorOrHalts : Prop :=
  decode (wrap 123) = .out ∧
  (∀ s : State, s.A.val = 59048 → exec .out s = .next { s with halt := true }) ∧
  (∀ s : State, s.A.val ≠ 59048 → exec .out s =
    .next { s with outputBuffer := s.outputBuffer ++ [s.A], C := wrap (s.C.val + 1), D := wrap (s.D.val + 1) }) ∧
  ∀ s : State, s.halt = false → s.fault = none → (s.memory.read s.C).val = 123 → step s = exec .out s ∧
    (s.A.val = 59048 → stepKind s = some .haltedNow ∧ StepKind.haltedNow.result = some false) ∧
    (s.A.val ≠ 59048 → stepKind s = some .advanced ∧ StepKind.advanced.result = some true)

/-- R141 on an empty queue and on an in-domain front element: the word 125 gives `A` the sentinel, or the element,
which leaves the queue; then the advance. -/
def Obligations.InDeliversTheFrontElementOrTheSentinel : Prop :=
  decode (wrap 125) = .inp ∧
  (∀ s : State, s.inputBuffer = [] → exec .inp s =
    .next { s with A := Config.maxValue, C := wrap (s.C.val + 1), D := wrap (s.D.val + 1) }) ∧
  ∀ (s : State) (v : Value) (xs : List Int), s.inputBuffer = (v.val : Int) :: xs → exec .inp s =
    .next { s with A := v, inputBuffer := xs, C := wrap (s.C.val + 1), D := wrap (s.D.val + 1) }

/-- The spec's own decision D7 (60_exceptions.md section 1; log 4): an out-of-domain element is removed, the marker is
set, `A` is its old value or 59048, and nothing else changes: no advance, and the call returns neither true nor
false. -/
def Obligations.InTakesARangeErrorOutOfDomain : Prop :=
  ∀ (s : State) (x : Int) (xs : List Int), s.inputBuffer = x :: xs → (x < 0 ∨ 59048 < x) →
    ∃ t : State, exec .inp s = .next t ∧ t.fault = some .rangeError ∧ (t.A = s.A ∨ t.A.val = 59048) ∧
      t.inputBuffer = xs ∧ t.C = s.C ∧ t.D = s.D ∧ t.halt = s.halt ∧ t.outputBuffer = s.outputBuffer ∧
      SameMemory s t ∧ StepKind.faulted.result = none

/-! ## Frames -/

/-- LOADD, JUMP, NOP and every other word store nothing and leave `A`, the queues, the flag and the marker; all but
LOADD (whose destination is `D`) only advance `D`, and all but JUMP (whose destination is `C`) only advance `C`. -/
def Obligations.FrameOfTheInstructionsThatStoreNothing : Prop :=
  ∀ (i : Instr) (s t : State), (i = .loadd ∨ i = .jump ∨ i = .nop ∨ ∃ w, i = .other w) → exec i s = .next t →
    t.A = s.A ∧ SameMemory s t ∧ SameQueuesAndFlags s t ∧
    (i ≠ .loadd → t.D.val = (s.D.val + 1) % 59049) ∧ (i ≠ .jump → t.C.val = (s.C.val + 1) % 59049)

/-- ROT and SUB store one word, at `operandAddress s`, and leave every other word, the queues, the flag and the marker;
`D` only advances. -/
def Obligations.FrameOfTheStoringInstructions : Prop :=
  ∀ (i : Instr) (s t : State), (i = .rot ∨ i = .sub) → exec i s = .next t →
    (∀ b, operandAddress s = b → SameMemoryBut b s t) ∧ SameQueuesAndFlags s t ∧ t.D.val = (s.D.val + 1) % 59049

/-- HALT, OUT and IN store nothing. HALT and OUT leave `A`, the input queue and the marker; HALT and IN leave the
output queue; IN leaves the flag; HALT leaves both pointers; OUT and IN leave each pointer or advance it. -/
def Obligations.FrameOfHaltAndTheIoInstructions : Prop :=
  ∀ (i : Instr) (s t : State), (i = .halt ∨ i = .out ∨ i = .inp) → exec i s = .next t →
    SameMemory s t ∧ (i ≠ .inp → t.A = s.A ∧ t.inputBuffer = s.inputBuffer ∧ t.fault = s.fault) ∧
    (i ≠ .out → t.outputBuffer = s.outputBuffer) ∧ (i = .inp → t.halt = s.halt) ∧
    (i = .halt → t.C = s.C ∧ t.D = s.D) ∧ ((t.C = s.C ∧ t.D = s.D) ∨ Advanced s t)

/-! ## The instruction cycle -/

/-- A machine that is neither halted nor faulted runs the instruction that the word at `memory[C]` decodes to: the
step is `exec` of it, with nothing around it. -/
def Obligations.StepRunsTheDecodedInstruction : Prop :=
  ∀ (s : State) (i : Instr), s.halt = false → s.fault = none → i.wf = true → decode (s.memory.read s.C) = i →
    step s = exec i s

/-- R111: a call on a halted machine returns false and changes nothing, however often it is repeated. -/
def Obligations.StepOnAHaltedMachineChangesNothing : Prop :=
  ∀ s : State, s.halt = true → step s = .next s ∧ stepKind s = some .alreadyHalted ∧
    StepKind.alreadyHalted.result = some false ∧ ∀ n : Nat, core.run n s = .next s

/-- The spec's own decision D8 (60_exceptions.md section 3; log 5): a faulted machine has no further step; the model
refuses it. -/
def Obligations.StepOnAFaultedMachineIsRefused : Prop :=
  ∀ s : State, s.halt = false → s.fault ≠ none → step s = .refused .steppedAfterFault

/-- Every word has an effect and no step waits (R65, R116): `exec` never answers a fault or a refusal, and every step of
a machine without a fault ends in a next state (a halted machine's leaves it as it is). That IN on an out-of-domain
element ends in a next state, with the marker set, is the spec's decision D7 (R155; DESIGN CHOICE, log 4). -/
def Obligations.EveryInstructionAndEveryStepCompletes : Prop :=
  (∀ (i : Instr) (s : State), ∃ t, exec i s = .next t) ∧ ∀ s : State, s.fault = none → ∃ t, step s = .next t

/-- R114: which step advances which pointer from which value. A step that halts, or finds the machine halted, leaves
both pointers (R114, R111); that a step which raises RangeError leaves them too is the spec's decision D7
(60_exceptions.md R155; DESIGN CHOICE, log 4). -/
def Obligations.AdvanceFollowsTheExecutePhase : Prop :=
  ∀ s t : State, step s = .next t →
    (stepKind s = some .advanced →
      t.C.val = ((if (s.memory.read s.C).val = 94 then s.memory.read s.D else s.C).val + 1) % 59049 ∧
      t.D.val = ((if (s.memory.read s.C).val = 42 then s.memory.read s.D else s.D).val + 1) % 59049) ∧
    (stepKind s ≠ some .advanced → t.C = s.C ∧ t.D = s.D) ∧ StepKind.advanced.result = some true

/-- R115: the result is true exactly when an instruction ran and the machine neither halted nor faulted; it is false
exactly when `halt` was already true, the instruction was `!`, or it was OUT with `A = MAX_VALUE`. That a result is the
negation of the flag afterwards is an inference which R115 marks as derived. That a step which raises RangeError returns
neither is the spec's decision D14 (R115, R155; DESIGN CHOICE, log 4), and the result is read off the states before and
after the call (the model's choice, log 6). -/
def Obligations.ResultOfAStepTellsTheFlag : Prop :=
  ∀ (s t : State) (k : StepKind), step s = .next t → stepKind s = some k →
    (k.result = some true ↔ s.halt = false ∧ t.halt = false ∧ t.fault = none) ∧
    (k.result = some false ↔ s.halt = true ∨ (s.memory.read s.C).val = 33 ∨
      (s.memory.read s.C).val = 123 ∧ s.A.val = 59048) ∧
    (∀ b, k.result = some b → t.halt = !b) ∧
    (k.result = none ↔ s.halt = false ∧ t.fault ≠ none)

/-- R164: a call on a machine without a fault has exactly one of the four outcomes, each with its own effect; the state
after the two halting ones is final. Which outcome a call has is read off the states before and after it (the model's
choice, log 6). What the faulted outcome leaves, the marker set and both pointers kept, is the spec's decision D7 (R155;
DESIGN CHOICE, log 4). -/
def Obligations.StepHasOneOfFourOutcomes : Prop :=
  ∀ s : State, s.fault = none → ∃ k t, stepKind s = some k ∧ step s = .next t ∧
    (k = .alreadyHalted ↔ s.halt = true) ∧ (k = .haltedNow ↔ s.halt = false ∧ t.halt = true) ∧
    (k = .faulted ↔ t.fault = some .rangeError) ∧ (k = .advanced ↔ t.halt = false ∧ t.fault = none) ∧
    (t.halt = true ↔ k = .haltedNow ∨ k = .alreadyHalted) ∧ (t.halt = true → step t = .next t) ∧
    (k = .alreadyHalted → t = s) ∧ (k = .haltedNow → t = { s with halt := true }) ∧
    (k = .faulted → t.C = s.C ∧ t.D = s.D)

/-- The lockstep case of R131 and R117: in lockstep ROT rotates its own word and still completes as ROT. -/
def Obligations.RotInLockstepOverwritesItself : Prop :=
  ∀ s : State, s.halt = false → s.fault = none → s.D = s.C → (s.memory.read s.C).val = 62 →
    ∃ t, step s = .next t ∧ t.A.val = 39386 ∧ t.memory.read s.C = t.A ∧ SameMemoryBut s.C s t ∧ Advanced s t

/-- R52, R185: the word that SUB or ROT stored is what a later fetch of that address reads and decodes, in any state
that still holds it. -/
def Obligations.LaterFetchSeesTheStoredWord : Prop :=
  ∀ s t u : State, step s = .next t → s.halt = false →
    ((s.memory.read s.C).val = 62 ∨ (s.memory.read s.C).val = 124) → u.memory.read s.D = t.memory.read s.D →
    u.C = s.D → u.halt = false → u.fault = none → step u = exec (decode t.A) u

/-- The model's own loading aid (log 8): a word placed where the step fetches is the instruction that the next step
runs. -/
def Obligations.PlacedWordRunsNext : Prop :=
  ∀ (s : State) (nbits w : Nat) (i : Instr), decodeTableWord nbits w = some i →
    step (s.withFetchWord nbits w) = exec i (s.withFetchWord nbits w)

/-! ## Whole-machine rules -/

/-- R25: only `!` and OUT at the sentinel set `halt`, and such a step changes nothing else. -/
def Obligations.OnlyHaltAndSentinelOutSetTheFlag : Prop :=
  ∀ s t : State, step s = .next t → s.halt = false → t.halt = true →
    ((s.memory.read s.C).val = 33 ∨ (s.memory.read s.C).val = 123 ∧ s.A.val = 59048) ∧ t = { s with halt := true }

/-- R53: only `>` and `|` write memory, and only the word at `D`. -/
def Obligations.OnlyRotAndSubWriteMemory : Prop :=
  ∀ (s t : State) (a : Value), step s = .next t → t.memory.read a ≠ s.memory.read a →
    ((s.memory.read s.C).val = 62 ∨ (s.memory.read s.C).val = 124) ∧ a = s.D ∧ s.halt = false

/-- R30: only OUT writes the output queue, by appending an `A` other than `MAX_VALUE`. -/
def Obligations.OnlyOutWritesTheOutputQueue : Prop :=
  ∀ s t : State, step s = .next t → t.outputBuffer ≠ s.outputBuffer →
    (s.memory.read s.C).val = 123 ∧ t.outputBuffer = s.outputBuffer ++ [s.A] ∧ s.A.val ≤ 59047

/-- R29: only IN consumes the input queue, by removing its front element; and no other step depends on the queue: with
any other input, a step that does not run the word 125 answers the same next state but for the queue, which it keeps. -/
def Obligations.OnlyInConsumesTheInputQueue : Prop :=
  ∀ s t : State, step s = .next t →
    (t.inputBuffer ≠ s.inputBuffer →
      s.halt = false ∧ (s.memory.read s.C).val = 125 ∧ ∃ x, s.inputBuffer = x :: t.inputBuffer) ∧
    ((s.memory.read s.C).val ≠ 125 ∨ s.halt = true → ∀ xs : List Int,
      step { s with inputBuffer := xs } = .next { t with inputBuffer := xs })

/-- R21: only `>`, `|` and IN write `A`, each with its own result. For IN it is the front element, or 59048 on an empty
queue; on an out-of-domain front element a changed `A` is 59048, beside the marker: that is the spec's decision D7
(R155; DESIGN CHOICE, log 4). -/
def Obligations.OnlyRotSubAndInWriteTheAccumulator : Prop :=
  ∀ s t : State, step s = .next t → t.A ≠ s.A →
    ((s.memory.read s.C).val = 62 ∧ t.A = rotateRight (s.memory.read s.D)) ∨
    ((s.memory.read s.C).val = 124 ∧ t.A = subtract s.A (s.memory.read s.D)) ∨
    ((s.memory.read s.C).val = 125 ∧
      ((s.inputBuffer = [] ∧ t.A.val = 59048) ∨ (∃ xs, s.inputBuffer = (t.A.val : Int) :: xs) ∨
        ∃ x xs, s.inputBuffer = x :: xs ∧ (x < 0 ∨ 59048 < x) ∧ t.A.val = 59048 ∧ t.fault = some .rangeError))

/-- What the spec derives in 60_exceptions.md section 1: a RangeError arises only at IN, on an out-of-domain element
at the front of the queue, and always does so there. -/
def Obligations.RangeErrorComesOnlyFromInput : Prop :=
  ∀ s t : State, step s = .next t → s.halt = false → (t.fault ≠ none ↔
    (s.memory.read s.C).val = 125 ∧ ∃ x xs, s.inputBuffer = x :: xs ∧ (x < 0 ∨ 59048 < x))

/-- What the spec derives in 70_reset_and_hazards.md section 2: a step that executes neither `*` nor `^` keeps the
distance `(D − C) mod 59049`. -/
def Obligations.PointerDistanceIsKept : Prop :=
  ∀ s t : State, step s = .next t → (s.memory.read s.C).val ≠ 42 → (s.memory.read s.C).val ≠ 94 →
    pointerDistance t = pointerDistance s

/-! ## Reset, invariants and runs -/

/-- R32, R182: the registers and the flag at reset, the empty queues, and for the empty program text all memory 0. -/
def Obligations.ResetIsTheEmptyProgramZeroed : Prop :=
  construct [] = .ok State.reset ∧ State.reset.A.val = 0 ∧ State.reset.C.val = 0 ∧ State.reset.D.val = 0 ∧
    State.reset.halt = false ∧ State.reset.inputBuffer = [] ∧ State.reset.outputBuffer = [] ∧
    State.reset.fault = none ∧ ∀ a : Value, (State.reset.memory.read a).val = 0

/-- The reset state meets both invariants. -/
def Obligations.ResetMeetsTheInvariants : Prop := State.reset.Inv ∧ State.reset.Typed

/-- Every step keeps the invariant: canonical memory (the model's choice, log 1), no output element 59048, no state
both faulted and halted. -/
def Obligations.StepKeepsTheInvariant : Prop :=
  ∀ s t : State, s.Inv → step s = .next t → t.Inv

/-- What the spec derives in 60_exceptions.md section 1 and 10_state.md section 7 (d): with in-domain input every
step completes, without RangeError, and leaves the input in domain. -/
def Obligations.TypedStepsNeverFault : Prop :=
  ∀ s : State, s.Typed → ∃ t, step s = .next t ∧ t.Typed

/-- What the spec derives in 10_state.md section 7 (b), (d): every run from a constructed machine in the default
interface, steps and host moves in any order, ends in a state of both invariants. That memory is canonical is a clause
of `Inv` for the model's own representation (log 1), not R35's. -/
def Obligations.RunsOfConstructedMachinesKeepTheInvariants : Prop :=
  ∀ (ws : CodePoint → Option Bool) (text : List CodePoint) (es : List Event) (s t : State),
    constructWith ws text = .ok s → run false es s = .next t → t.Inv ∧ t.Typed

/-- R25, and what the spec derives in 10_state.md section 7 (c): once `halt` is true, no run clears it or changes a
register, memory or the marker, and the queues change only by the host's own moves: steps alone change nothing. -/
def Obligations.HaltedMachinesAreFrozen : Prop :=
  ∀ (untyped : Bool) (es : List Event) (s t : State), s.halt = true → run untyped es s = .next t →
    t.halt = true ∧ t.A = s.A ∧ t.C = s.C ∧ t.D = s.D ∧ t.memory = s.memory ∧ t.fault = s.fault ∧
    ((∀ e ∈ es, e = .step) → t = s)

/-- What the spec derives in 10_state.md section 7 (e): in a run from a constructed machine in which no unhalted
state about to step holds `*` or `^` at `C`, the two pointers stay equal. -/
def Obligations.LockstepLastsUntilAPointerLoad : Prop :=
  ∀ (untyped : Bool) (ws : CodePoint → Option Bool) (text : List CodePoint) (es : List Event) (s t : State),
    constructWith ws text = .ok s → run untyped es s = .next t →
    (∀ (before after : List Event) (u : State), es = before ++ .step :: after → run untyped before s = .next u →
      u.halt = false → (u.memory.read u.C).val ≠ 42 ∧ (u.memory.read u.C).val ≠ 94) →
    t.D = t.C

/-- R46, and what the spec derives in 70_reset_and_hazards.md section 2: over a memory of no-operations `n` steps
move both pointers on by `n`, modulo 59049, and a whole number of laps of 59049 steps gives the state back. -/
def Obligations.LapOverNoOperationsReturns : Prop :=
  ∀ s : State, s.halt = false → s.fault = none →
    (∀ a : Value, (s.memory.read a).val = 95 ∨ s.memory.read a ∉ commandWords) →
    (∀ n : Nat, core.run n s = .next ({ s with C := wrap (s.C.val + n), D := wrap (s.D.val + n) } : State)) ∧
    ∀ n : Nat, n % 59049 = 0 → core.run n s = .next s

/-- R30: the machine never reads its output: whatever the queue holds before, the run is the same but for what stood
in the queue at its start. -/
def Obligations.OutputHasNoEffectOnTheRun : Prop :=
  ∀ (n : Nat) (s t : State) (o : List Value), core.run n s = .next t → ∃ emitted : List Value,
    t.outputBuffer = s.outputBuffer ++ emitted ∧
    core.run n ({ s with outputBuffer := o } : State) = .next ({ t with outputBuffer := o ++ emitted } : State)

/-- R31: what each host move changes and what it leaves; and, by the spec's decision D6 (log 3), the move that the
default interface does not have is refused. -/
def Obligations.HostMovesTouchOnlyTheQueues : Prop :=
  (∀ (untyped : Bool) (xs : List Int) (s : State), (untyped = true ∨ ∀ x ∈ xs, 0 ≤ x ∧ x ≤ 59048) →
    hostMove untyped (.writeInput xs) s = .next { s with inputBuffer := xs }) ∧
  (∀ (xs : List Int) (s : State), (∃ x ∈ xs, x < 0 ∨ 59048 < x) →
    hostMove false (.writeInput xs) s = .refused .inputOutOfDomain) ∧
  ∀ (untyped : Bool) (s : State), hostMove untyped .clearOutput s = .next { s with outputBuffer := [] }

/-! ## The arithmetic units -/

/-- R92: `increment` is addition modulo 59049, its first argument is checked and its second is not. -/
def Obligations.IncrementIsModular : Prop :=
  (∀ (v : Value) (y : Nat), incrementChecked v.val y = .ok (incrementBy v y)) ∧
  (∀ (x : Int) (y : Nat), (x < 0 ∨ 59048 < x) → incrementChecked x y = .error .rangeError) ∧
  (∀ (x : Value) (y : Nat), (incrementBy x y).val = (x.val + y) % 59049) ∧
  (∀ x : Value, x.val ≤ 59047 → (increment x).val = x.val + 1) ∧ ∀ x : Value, x.val = 59048 → (increment x).val = 0

/-- Every digit moves one place down and the lowest re-enters at the top (the spec derives this digit form from
R93). -/
def Obligations.RotationMovesEveryDigitDown : Prop :=
  ∀ x : Value, digit 9 (rotateRight x) = digit 0 x ∧ ∀ i < 9, digit i (rotateRight x) = digit (i + 1) x

/-- R95 (its second half derived by the spec): the count counts single rotations, and only modulo 10. -/
def Obligations.RotationCountIsModuloTen : Prop :=
  ∀ (x : Value) (y : Nat), rotateRightBy x y = rotateRight^[y] x ∧ rotateRightBy x y = rotateRightBy x (y % 10)

/-- R96, (a) to (e) of it derived by the spec: ten rotations are the identity; the source's three values; (a)
bijection with the left rotation as inverse; (b) the fixed points; (c) the orbit sizes; (d) multiples of 3; (e)
powers of 3. -/
def Obligations.RotationLaws : Prop :=
  (∀ x : Value, rotateRightBy x 10 = x) ∧
  (rotateRight 0 = 0 ∧ rotateRight 1 = 19683 ∧ rotateRight 19683 = 6561) ∧
  (Function.Bijective rotateRight ∧ (∀ x, rotateLeft (rotateRight x) = x) ∧ (∀ x, rotateRight (rotateLeft x) = x) ∧
    ∀ x, rotateLeft x = rotateRightBy x 9) ∧
  (∀ x : Value, rotateRight x = x ↔ x.val = 0 ∨ x.val = 29524 ∨ x.val = 59048) ∧
  (∀ x : Value, Function.minimalPeriod rotateRight x ∈ ([1, 2, 5, 10] : List Nat)) ∧
  (∀ x : Value, x.val % 3 = 0 → (rotateRight x).val = x.val / 3) ∧
  (∀ k : Nat, 1 ≤ k → k ≤ 9 → rotateRight (wrap (3 ^ k)) = wrap (3 ^ (k - 1))) ∧ rotateRight (wrap 1) = wrap (3 ^ 9)

/-- R97: each digit of the result is computed from the two digits at its own place, the result is the number that these
digits form, and an argument out of domain fails. -/
def Obligations.SubtractionWorksDigitByDigit : Prop :=
  (∀ x y : Value, ∀ i < 10, (subtract x y).val / 3 ^ i % 3 = (3 + x.val / 3 ^ i % 3 - y.val / 3 ^ i % 3) % 3) ∧
  (∀ x y : Value, (subtract x y).val =
    ∑ i ∈ Finset.range 10, (3 + x.val / 3 ^ i % 3 - y.val / 3 ^ i % 3) % 3 * 3 ^ i) ∧
  (∀ x y : Value, subtractChecked x.val y.val = .ok (subtract x y)) ∧
  ∀ x y : Int, (x < 0 ∨ 59048 < x ∨ y < 0 ∨ 59048 < y) → subtractChecked x y = .error .rangeError

/-- R98: the form that peels the lowest digit gives the same number (the spec derives the equality by induction). -/
def Obligations.PeelingSubtractionAgrees : Prop :=
  ∀ x y : Value, subtractPeeling 10 x.val y.val = (subtract x y).val

/-- The one-trit cell and the laws (a) to (k) that the spec derives from R97 (40_arithmetic_units.md section 5). -/
def Obligations.SubtractionLaws : Prop :=
  (∀ a b : Trit, (tritSub a b).val = (3 + a.val - b.val) % 3) ∧
  (∀ x : Value, subtract x 0 = x) ∧ (∀ x : Value, subtract x x = 0) ∧
  (∀ x y : Value, subtract x (subtract x y) = y) ∧
  (∀ x y z : Value, subtract (subtract x y) z = subtract (subtract x z) y) ∧
  (∀ x y : Value, subtract (subtract (subtract x y) y) y = x) ∧
  (subtract 0 1 = 2 ∧ subtract 1 0 = 1) ∧
  (∀ y : Value, subtract 0 (subtract 0 y) = y) ∧
  ((∀ x y : Value, (∀ i < 10, (digit i y).val ≤ (digit i x).val) → (subtract x y).val = x.val - y.val) ∧
    ∀ y : Value, (subtract Config.maxValue y).val = 59048 - y.val) ∧
  subtract 3 1 = 5 ∧
  (∀ x y : Value, rotateRight (subtract x y) = subtract (rotateRight x) (rotateRight y)) ∧
  (∀ y : Value, Function.Bijective fun x => subtract x y) ∧ ∀ x : Value, Function.Bijective (subtract x)

/-- R91, R100, R90: `isInDomain` holds exactly of `0..59048`; and the units on untyped integers give RangeError exactly
on an argument outside it (the second argument of `increment` is not checked), the unit's value otherwise. -/
def Obligations.UnitsRejectOutOfDomainArguments : Prop :=
  (∀ x : Int, isInDomain x = true ↔ 0 ≤ x ∧ x ≤ 59048) ∧
  (∀ (x : Int) (y : Nat), (x < 0 ∨ 59048 < x) → incrementChecked x y = .error .rangeError ∧
    rotateRightChecked x y = .error .rangeError) ∧
  (∀ x y : Int, (x < 0 ∨ 59048 < x) ∨ (y < 0 ∨ 59048 < y) → subtractChecked x y = .error .rangeError) ∧
  (∀ (v : Value) (y : Nat), incrementChecked v.val y = .ok (incrementBy v y) ∧
    rotateRightChecked v.val y = .ok (rotateRightBy v y)) ∧
  ∀ v w : Value, subtractChecked v.val w.val = .ok (subtract v w)

/-- R24, R41: the domain-checked setters write an in-domain integer and nothing else, and fail, writing nothing, on any
other. -/
def Obligations.SettersCheckTheDomain : Prop :=
  (∀ (v a : Value) (s : State), assignA v.val s = .ok { s with A := v } ∧ assignC v.val s = .ok { s with C := v } ∧
    assignD v.val s = .ok { s with D := v } ∧
    ∃ t, assignWord a v.val s = .ok t ∧ t.memory.read a = v ∧ SameMemoryBut a s t ∧ t = { s with memory := t.memory }) ∧
  ∀ (x : Int) (a : Value) (s : State), (x < 0 ∨ 59048 < x) → assignA x s = .error .rangeError ∧
    assignC x s = .error .rangeError ∧ assignD x s = .error .rangeError ∧ assignWord a x s = .error .rangeError

/-! ## Encoding -/

/-- Decoding and encoding agree in both directions: every well-formed instruction is read back from its word, and
every word is the encoding of the well-formed instruction it decodes to. -/
def Obligations.DecodeAndEncodeAgree : Prop :=
  (∀ i : Instr, i.wf = true → decode (encode i) = i) ∧ ∀ w : Value, (decode w).wf = true ∧ encode (decode w) = w

/-- R63: the ten trits of each of the eight command words decode to its instruction, and 0 and 39386 to the default. -/
def Obligations.CommandWordsDecodeAsTheMapSays : Prop :=
  decode (wordOfTrits [0, 0, 0, 0, 0, 0, 1, 0, 2, 0]) = .halt ∧
  decode (wordOfTrits [0, 0, 0, 0, 0, 0, 1, 1, 2, 0]) = .loadd ∧
  decode (wordOfTrits [0, 0, 0, 0, 0, 0, 2, 0, 2, 2]) = .rot ∧
  decode (wordOfTrits [0, 0, 0, 0, 0, 1, 0, 1, 1, 1]) = .jump ∧
  decode (wordOfTrits [0, 0, 0, 0, 0, 1, 0, 1, 1, 2]) = .nop ∧
  decode (wordOfTrits [0, 0, 0, 0, 0, 1, 1, 1, 2, 0]) = .out ∧
  decode (wordOfTrits [0, 0, 0, 0, 0, 1, 1, 1, 2, 1]) = .sub ∧
  decode (wordOfTrits [0, 0, 0, 0, 0, 1, 1, 1, 2, 2]) = .inp ∧
  decode (wordOfTrits [0, 0, 0, 0, 0, 0, 0, 0, 0, 0]) = .other 0 ∧
  decode (wordOfTrits [2, 0, 0, 0, 0, 0, 0, 2, 0, 2]) = .other 39386

/-- R65: each word that is none of the eight decodes to the default row, there are 59041 of them (0 is one), and each
advances `C` and `D` and returns true. -/
def Obligations.EveryOtherWordIsANoOperation : Prop :=
  (∀ w : Value, decode w = .other w ↔ w ∉ commandWords) ∧
  (Finset.univ.filter fun w : Value => ∃ v, decode w = .other v).card = 59041 ∧
  decode 0 = .other 0 ∧
  ∀ s : State, s.halt = false → s.fault = none → s.memory.read s.C ∉ commandWords →
    step s = .next { s with C := wrap (s.C.val + 1), D := wrap (s.D.val + 1) } ∧ stepKind s = some .advanced ∧
    StepKind.advanced.result = some true

/-! ## The loader and construction -/

/-- R68: a comment, from `(` to the next `)`, is skipped wherever it stands, whatever it holds (a further `(` too). -/
def Obligations.CommentsAreSkipped : Prop :=
  ∀ (ws : CodePoint → Option Bool) (image : List Value) (body rest : List CodePoint), 41 ∉ body →
    scan ws false image (40 :: (body ++ 41 :: rest)) = scan ws false image rest

/-- R72: a text that ends inside a comment fails. -/
def Obligations.UnterminatedCommentsFail : Prop :=
  ∀ (ws : CodePoint → Option Bool) (image : List Value) (body : List CodePoint), 41 ∉ body →
    scan ws false image (40 :: body) = .syntaxError .unterminatedComment

/-- R70, R71, R69: under every whitespace set that keeps what D4 knows of `WS`, a text of command characters loads as
its code points up to 59049 of them, a longer one fails, and the six default whitespace characters are whitespace; and
under any set at all a whitespace character outside a comment is skipped wherever it stands. -/
def Obligations.CommandTextsLoadUpToTheLimit : Prop :=
  (∀ ws : CodePoint → Option Bool, RespectsKnownWs ws →
    (∀ words : List Value, (∀ w ∈ words, w ∈ commandWords) → load ws (words.map fun w => w.val) =
      if words.length ≤ 59049 then .ok words else .syntaxError .programTooLong) ∧
    ∀ c ∈ ([9, 10, 11, 12, 13, 32] : List CodePoint), ws c = some true) ∧
  ∀ (ws : CodePoint → Option Bool) (image : List Value) (c : CodePoint) (rest : List CodePoint), c ≠ 40 →
    ws c = some true → scan ws false image (c :: rest) = scan ws false image rest

/-- R70, R159: after any text that scans, with its comments and its whitespace, a character that is neither whitespace,
command nor `(` fails the load whatever follows it. Which characters are not whitespace is for the parameter `ws` to
say. -/
def Obligations.FirstInvalidCharacterFailsTheLoad : Prop :=
  ∀ (ws : CodePoint → Option Bool) (image scanned : List Value) (before rest : List CodePoint) (c : CodePoint),
    scan ws false image before = .ok scanned → c ≠ 40 → ws c = some false → (∀ w ∈ commandWords, w.val ≠ c) →
    scan ws false image (before ++ c :: rest) = .syntaxError .invalidCharacter

/-- R32, R70: under every whitespace set that keeps what D4 knows of `WS`, the image that a text loads to is the sequence
of its command characters outside comments. -/
def Obligations.LoadedImageIsTheCommandsOutsideComments : Prop :=
  ∀ (ws : CodePoint → Option Bool) (text : List CodePoint) (image : List Value), RespectsKnownWs ws →
    load ws text = .ok image →
    image.length ≤ 59049 ∧ (image.map fun w => w.val) = commandsOf (outsideComments false text)

/-- R32, R73: a construction that succeeds gives every component its reset value: the image at address 0 upward with
zeros above it, the registers 0, the flag false, the queues empty, no fault. -/
def Obligations.ConstructionGivesTheResetState : Prop :=
  ∀ (ws : CodePoint → Option Bool) (text : List CodePoint) (image : List Value), load ws text = .ok image →
    ∃ s, constructWith ws text = .ok s ∧ (∀ a : Value, s.memory.read a = (image[a.val]?).getD 0) ∧
      s.A.val = 0 ∧ s.C.val = 0 ∧ s.D.val = 0 ∧ s.halt = false ∧ s.inputBuffer = [] ∧ s.outputBuffer = [] ∧
      s.fault = none

/-- What 10_state.md section 6 derives: every word right after construction is one of nine, and the non-zero words are
exactly a prefix. -/
def Obligations.ResetMemoryIsAPrefixOfCommands : Prop :=
  ∀ (ws : CodePoint → Option Bool) (text : List CodePoint) (s : State), constructWith ws text = .ok s →
    (∀ a : Value, (s.memory.read a).val ∈ resetWords) ∧
    ∃ n ≤ 59049, ∀ a : Value, (s.memory.read a).val ≠ 0 ↔ a.val < n

/-- D4 (R69 leaves the set open; log 10): the six characters are whitespace, the ASCII letters, digits and punctuation
are not, every other character is undecided; a text that has a meaning so has that meaning under every whitespace set
that keeps this; and after any text that scans, an undecided character outside a comment is refused, whatever follows
it. -/
def Obligations.LoaderMeaningsDoNotDependOnOpenWhitespace : Prop :=
  (∀ c : CodePoint, (knownWs c = some true ↔ c ∈ ([9, 10, 11, 12, 13, 32] : List CodePoint)) ∧
    (knownWs c = some false ↔ 33 ≤ c ∧ c ≤ 126)) ∧
  (∀ (ws : CodePoint → Option Bool) (text : List CodePoint) (r : Loaded (List Value)), RespectsKnownWs ws →
    load knownWs text = r → (∀ why, r ≠ .refused why) → load ws text = r) ∧
  ∀ (ws : CodePoint → Option Bool) (image scanned : List Value) (before rest : List CodePoint) (c : CodePoint),
    scan ws false image before = .ok scanned → c ≠ 40 → ws c = none →
    scan ws false image (before ++ c :: rest) = .refused (.whitespaceOpen c)
end

