-- ==== Sys2Proof/Laws/Arith.lean ====
section
/-! SUPPORT. Values, digits and the domain check (40_arithmetic_units.md R91, R92, R100, R101). -/

namespace Sys2Proof.Machine

@[simp] theorem digit_val (i : Nat) (x : Value) : (digit i x).val = x.val / 3 ^ i % 3 := rfl

@[simp] theorem tritSub_val (a b : Trit) : (tritSub a b).val = (3 + a.val - b.val) % 3 := rfl

@[simp] theorem incrementBy_val (x : Value) (y : Nat) : (incrementBy x y).val = (x.val + y) % 59049 := rfl

@[simp] theorem increment_val (x : Value) : (increment x).val = (x.val + 1) % 59049 := rfl

@[simp] theorem rotateRight_val (x : Value) : (rotateRight x).val = x.val / 3 + x.val % 3 * 19683 := rfl

@[simp] theorem rotateLeft_val (x : Value) : (rotateLeft x).val = x.val % 19683 * 3 + x.val / 19683 := rfl

theorem subtract_val (x y : Value) :
    (subtract x y).val = fromDigits (fun i => tritSub (digit i x) (digit i y)) 10 := rfl

theorem isInDomain_iff (x : Int) : isInDomain x = true ↔ 0 ≤ x ∧ x ≤ 59048 := by simp [isInDomain]

@[simp] theorem isInDomain_value (v : Value) : isInDomain (v.val : Int) = true := by
  have := v.isLt
  rw [isInDomain_iff]
  omega

/-- What the domain check can answer: the value of an in-domain integer, or RangeError. -/
theorem checkDomain_cases (x : Int) :
    (isInDomain x = true ∧ ∃ v : Value, (v.val : Int) = x ∧ checkDomain x = .ok v) ∨
      (isInDomain x = false ∧ checkDomain x = .error .rangeError) := by
  by_cases h : isInDomain x = true
  · have h' := (isInDomain_iff x).1 h
    refine .inl ⟨h, wrap x.toNat, ?_, by simp [checkDomain, h]⟩
    rw [wrap_val, Nat.mod_eq_of_lt (by omega)]
    omega
  · exact .inr ⟨by simpa using h, by simp [checkDomain, h]⟩

/-- A `Value` passes the domain check unchanged (R90: "no error possible" on `Value`). -/
@[simp] theorem checkDomain_value (v : Value) : checkDomain (v.val : Int) = .ok v := by
  simp [checkDomain, wrap_of_val]

end Sys2Proof.Machine
end

