-- ==== Sys2Proof/Laws/Loader.lean ====
section
/-! SUPPORT. What one character does to the loader's scan, said once, and what is known of the whitespace set. -/

namespace Sys2Proof.Machine

/-- The word of a character is the command word with that code point, if there is one. -/
theorem commandWord_eq_some_iff (c : CodePoint) (w : Value) :
    commandWord c = some w ↔ w ∈ commandWords ∧ w.val = c := by
  constructor
  · intro h
    exact ⟨List.mem_of_find?_eq_some h, by simpa using List.find?_some h⟩
  · rintro ⟨h, rfl⟩
    simp only [commandWords, List.mem_cons, List.not_mem_nil, or_false] at h
    rcases h with rfl | rfl | rfl | rfl | rfl | rfl | rfl | rfl <;> decide

/-- A character with no command word. -/
theorem commandWord_eq_none_iff (c : CodePoint) : commandWord c = none ↔ ∀ w ∈ commandWords, w.val ≠ c := by
  simp [commandWord]

/-- No command character is `(`, and each is known not to be whitespace. -/
theorem command_known {w : Value} (h : w ∈ commandWords) : w.val ≠ 40 ∧ knownWs w.val = some false := by
  simp only [commandWords, List.mem_cons, List.not_mem_nil, or_false] at h
  rcases h with rfl | rfl | rfl | rfl | rfl | rfl | rfl | rfl <;> decide

/-- The default value of `WS` keeps what is known of it. -/
theorem respectsKnownWs_defaultWs : RespectsKnownWs defaultWs := fun c b h => by
  unfold knownWs at h
  unfold defaultWs
  split_ifs at h with h1 h2
  · rw [h1, h]
  · rw [← h, Option.some_inj]
    simpa using h1

/-- Inside a comment a scan that succeeds closes it at `)` and passes over any other character. -/
theorem scan_inside_cases {ws : CodePoint → Option Bool} {image r : List Value} {c : CodePoint} {cs : List CodePoint}
    (h : scan ws true image (c :: cs) = .ok r) :
    (c = 41 ∧ scan ws false image cs = .ok r) ∨ (c ≠ 41 ∧ scan ws true image cs = .ok r) := by
  simp only [scan] at h
  split at h
  · exact .inl ⟨by assumption, h⟩
  · exact .inr ⟨by assumption, h⟩

/-- Outside a comment a scan that succeeds opens one, skips a whitespace character, or appends a command's word. -/
theorem scan_outside_cases {ws : CodePoint → Option Bool} {image r : List Value} {c : CodePoint} {cs : List CodePoint}
    (h : scan ws false image (c :: cs) = .ok r) :
    (c = 40 ∧ scan ws true image cs = .ok r) ∨
      (c ≠ 40 ∧ ws c = some true ∧ scan ws false image cs = .ok r) ∨
      (c ≠ 40 ∧ ws c = some false ∧ ∃ w ∈ commandWords, w.val = c ∧ image.length ≠ 59049 ∧
        scan ws false (image ++ [w]) cs = .ok r) := by
  simp only [scan] at h
  split at h
  · exact .inl ⟨by assumption, h⟩
  · rename_i h40
    split at h
    · exact .inr (.inl ⟨h40, by assumption, h⟩)
    · cases h
    · rename_i hw
      split at h
      · rename_i w hc
        obtain ⟨hm, hv⟩ := (commandWord_eq_some_iff c w).1 hc
        split at h
        · cases h
        · exact .inr (.inr ⟨h40, hw, w, hm, hv, by assumption, h⟩)
      · cases h

/-- The scan of a text that scans so far is the scan of its rest over the image so far: nothing else is kept between
characters (30_encoding.md R67). -/
theorem scan_append {ws : CodePoint → Option Bool} {inside : Bool} {image r : List Value} {cs : List CodePoint}
    (rest : List CodePoint) (h : scan ws inside image cs = .ok r) :
    scan ws inside image (cs ++ rest) = scan ws false r rest := by
  induction cs generalizing inside image with
  | nil =>
    cases inside <;> simp only [scan] at h
    · cases h; rfl
    · cases h
  | cons c cs ih =>
    cases inside
    · rcases scan_outside_cases h with ⟨rfl, h⟩ | ⟨h40, hw, h⟩ | ⟨h40, hw, w, hm, hv, hl, h⟩
      · rw [← ih h]; rfl
      · rw [← ih h]; simp only [List.cons_append, scan, if_neg h40, hw]
      · rw [← ih h]
        simp only [List.cons_append, scan, if_neg h40, hw, (commandWord_eq_some_iff c w).2 ⟨hm, hv⟩, if_neg hl]
    · rcases scan_inside_cases h with ⟨rfl, h⟩ | ⟨h41, h⟩
      · rw [← ih h]; rfl
      · rw [← ih h]; simp only [List.cons_append, scan, if_neg h41]

end Sys2Proof.Machine
end

