-- ==== Sys2Proof/Laws/Memory.lean ====
section
/-! SUPPORT. What the memory operations do (20_memory.md R41), and that each keeps the canonical form. The reading laws
hold of every list, canonical or not. -/

namespace Sys2Proof.Machine

variable (m : Memory) (a b v : Value)

theorem Memory.read_erase : (m.erase a).read b = if a = b then blankWord else m.read b := by
  induction m with
  | nil => simp [Memory.erase, Memory.read]
  | cons c m ih =>
    obtain ⟨k, w⟩ := c
    by_cases hk : k = a
    · subst hk
      simp only [Memory.erase, if_true, ih, Memory.read]
      split_ifs <;> rfl
    · simp only [Memory.erase, if_neg hk, Memory.read, ih]
      split_ifs with h1 h2
      · exact absurd (h1.trans h2.symm) hk
      all_goals rfl

theorem Memory.read_place (hm : ∀ c ∈ m, c.1 ≠ a) :
    (m.place a v).read b = if a = b then v else m.read b := by
  induction m with
  | nil => simp [Memory.place, Memory.read]
  | cons c m ih =>
    obtain ⟨k, w⟩ := c
    have hk : k ≠ a := hm (k, w) (by simp)
    have hm' : ∀ c ∈ m, c.1 ≠ a := fun c hc => hm c (by simp [hc])
    simp only [Memory.place]
    split_ifs with h1 h2 h2
    · simp [Memory.read, h2]
    · simp [Memory.read, h2]
    · subst h2
      simp [Memory.read, hk, ih hm']
    · simp [Memory.read, ih hm', h2]

theorem Memory.mem_erase {c : Cell} : c ∈ m.erase a ↔ c ∈ m ∧ c.1 ≠ a := by
  induction m with
  | nil => simp [Memory.erase]
  | cons d m ih =>
    obtain ⟨k, w⟩ := d
    by_cases hk : k = a
    · simp only [Memory.erase, if_pos hk, ih, List.mem_cons]
      constructor
      · rintro ⟨h1, h2⟩
        exact ⟨.inr h1, h2⟩
      · rintro ⟨rfl | h1, h2⟩
        · exact absurd hk h2
        · exact ⟨h1, h2⟩
    · simp only [Memory.erase, if_neg hk, ih, List.mem_cons]
      constructor
      · rintro (rfl | ⟨h1, h2⟩)
        · exact ⟨.inl rfl, hk⟩
        · exact ⟨.inr h1, h2⟩
      · rintro ⟨rfl | h1, h2⟩
        · exact .inl rfl
        · exact .inr ⟨h1, h2⟩

theorem Memory.mem_place {c : Cell} : c ∈ m.place a v ↔ c = (a, v) ∨ c ∈ m := by
  induction m with
  | nil => simp [Memory.place]
  | cons d m ih =>
    simp only [Memory.place]
    split_ifs
    · simp
    · simp only [List.mem_cons, ih]
      tauto

/-- The one law of `MemWrite` (R41): the written address reads the new word, every other address as before. -/
theorem Memory.read_write : (m.write a v).read b = if a = b then v else m.read b := by
  unfold Memory.write
  have hm : ∀ c ∈ m.erase a, c.1 ≠ a := fun c hc => ((Memory.mem_erase _ a).1 hc).2
  split_ifs with hv hb hb
  · rw [Memory.read_erase, if_pos hb, hv]
  · rw [Memory.read_erase, if_neg hb]
  · rw [Memory.read_place _ _ _ _ hm, if_pos hb]
  · rw [Memory.read_place _ _ _ _ hm, if_neg hb, Memory.read_erase, if_neg hb]

@[simp] theorem Memory.read_write_same : (m.write a v).read a = v := by simp [Memory.read_write]

theorem Memory.read_write_other (h : a ≠ b) : (m.write a v).read b = m.read b := by simp [Memory.read_write, h]

/-- The canonical form, with the entries' values said by a quantifier. -/
theorem Memory.wf_iff : m.wf ↔ m.Pairwise (fun c d => c.1 < d.1) ∧ ∀ c ∈ m, c.2 ≠ blankWord := by
  simp [Memory.wf]

theorem Memory.wf_nil : Memory.wf [] := by simp [Memory.wf]

/-- The reset state's memory is canonical. -/
theorem State.reset_memory_wf : State.reset.memory.wf := Memory.wf_nil

theorem Memory.wf_erase (h : m.wf) : (m.erase a).wf := by
  rw [Memory.wf_iff] at h ⊢
  refine ⟨?_, fun c hc => h.2 c ((Memory.mem_erase _ a).1 hc).1⟩
  have h1 := h.1
  clear h
  induction m with
  | nil => exact List.Pairwise.nil
  | cons c m ih =>
    obtain ⟨k, w⟩ := c
    rw [List.pairwise_cons] at h1
    simp only [Memory.erase]
    split_ifs
    · exact ih h1.2
    · exact List.pairwise_cons.2 ⟨fun c hc => h1.1 c ((Memory.mem_erase _ a).1 hc).1, ih h1.2⟩

theorem Memory.wf_place (h : m.wf) (ha : ∀ c ∈ m, c.1 ≠ a) (hv : v ≠ blankWord) : (m.place a v).wf := by
  rw [Memory.wf_iff] at h ⊢
  refine ⟨?_, fun c hc => ?_⟩
  · have h1 := h.1
    clear h
    induction m with
    | nil => exact List.pairwise_singleton _ _
    | cons c m ih =>
      obtain ⟨k, w⟩ := c
      rw [List.pairwise_cons] at h1
      have hk : k ≠ a := ha (k, w) (by simp)
      have ha' : ∀ c ∈ m, c.1 ≠ a := fun c hc => ha c (by simp [hc])
      simp only [Memory.place]
      split_ifs with hlt
      · refine List.pairwise_cons.2 ⟨fun c hc => ?_, List.pairwise_cons.2 h1⟩
        rcases List.mem_cons.1 hc with rfl | hc
        · exact hlt
        · exact lt_trans hlt (h1.1 c hc)
      · refine List.pairwise_cons.2 ⟨fun c hc => ?_, ih ha' h1.2⟩
        rcases (Memory.mem_place _ a v).1 hc with rfl | hc
        · exact lt_of_le_of_ne (not_lt.1 hlt) hk
        · exact h1.1 c hc
  · rcases (Memory.mem_place _ a v).1 hc with rfl | hc
    · exact hv
    · exact h.2 c hc

/-- `MemWrite` keeps the canonical form. -/
theorem Memory.wf_write (h : m.wf) : (m.write a v).wf := by
  unfold Memory.write
  split_ifs with hv
  · exact Memory.wf_erase _ a h
  · exact Memory.wf_place _ a v (Memory.wf_erase _ a h) (fun c hc => ((Memory.mem_erase _ a).1 hc).2) hv

theorem Memory.mem_ofImage {vs : List Value} {i : Nat} {c : Cell} (h : c ∈ Memory.ofImage i vs) :
    i ≤ c.1.val ∧ c.2 ∈ vs ∧ c.2 ≠ blankWord := by
  induction vs generalizing i with
  | nil => simp [Memory.ofImage] at h
  | cons w vs ih =>
    simp only [Memory.ofImage] at h
    split_ifs at h with hi hw
    · obtain ⟨h1, h2, h3⟩ := ih h
      exact ⟨by omega, by simp [h2], h3⟩
    · rcases List.mem_cons.1 h with rfl | h
      · exact ⟨by simp [Nat.mod_eq_of_lt hi], by simp, hw⟩
      · obtain ⟨h1, h2, h3⟩ := ih h
        exact ⟨by omega, by simp [h2], h3⟩
    · simp at h

/-- The loader's image is canonical. -/
theorem Memory.wf_ofImage (vs : List Value) (i : Nat) : (Memory.ofImage i vs).wf := by
  rw [Memory.wf_iff]
  refine ⟨?_, fun c hc => (Memory.mem_ofImage hc).2.2⟩
  induction vs generalizing i with
  | nil => exact List.Pairwise.nil
  | cons w vs ih =>
    simp only [Memory.ofImage]
    split_ifs with hi hw
    · exact ih _
    · refine List.pairwise_cons.2 ⟨fun c hc => ?_, ih _⟩
      have := (Memory.mem_ofImage hc).1
      rw [Fin.lt_def, wrap_val, Nat.mod_eq_of_lt hi]
      omega
    · exact List.Pairwise.nil

theorem Memory.read_of_forall_ne {m : Memory} {a : Value} (h : ∀ c ∈ m, c.1 ≠ a) : m.read a = blankWord := by
  induction m with
  | nil => rfl
  | cons c m ih =>
    obtain ⟨k, w⟩ := c
    simp only [Memory.read]
    rw [if_neg (h (k, w) (by simp))]
    exact ih fun c hc => h c (by simp [hc])

end Sys2Proof.Machine
end

