-- ==== Sys2Proof/Laws/State.lean ====
section
/-! SUPPORT. One lemma for each field of the state and each update of it, true by `rfl`, so that no proof unfolds a
record update. -/

namespace Sys2Proof.Machine

variable (s : State)

/-! ### storeWord -/

@[simp] theorem storeWord_A (a v : Value) : (storeWord a v s).A = s.A := rfl

@[simp] theorem storeWord_C (a v : Value) : (storeWord a v s).C = s.C := rfl

@[simp] theorem storeWord_D (a v : Value) : (storeWord a v s).D = s.D := rfl

@[simp] theorem storeWord_halt (a v : Value) : (storeWord a v s).halt = s.halt := rfl

@[simp] theorem storeWord_memory (a v : Value) : (storeWord a v s).memory = s.memory.write a v := rfl

@[simp] theorem storeWord_inputBuffer (a v : Value) : (storeWord a v s).inputBuffer = s.inputBuffer := rfl

@[simp] theorem storeWord_outputBuffer (a v : Value) : (storeWord a v s).outputBuffer = s.outputBuffer := rfl

@[simp] theorem storeWord_fault (a v : Value) : (storeWord a v s).fault = s.fault := rfl


/-! ### setA -/

@[simp] theorem setA_A (v : Value) : (setA v s).A = v := rfl

@[simp] theorem setA_C (v : Value) : (setA v s).C = s.C := rfl

@[simp] theorem setA_D (v : Value) : (setA v s).D = s.D := rfl

@[simp] theorem setA_halt (v : Value) : (setA v s).halt = s.halt := rfl

@[simp] theorem setA_memory (v : Value) : (setA v s).memory = s.memory := rfl

@[simp] theorem setA_inputBuffer (v : Value) : (setA v s).inputBuffer = s.inputBuffer := rfl

@[simp] theorem setA_outputBuffer (v : Value) : (setA v s).outputBuffer = s.outputBuffer := rfl

@[simp] theorem setA_fault (v : Value) : (setA v s).fault = s.fault := rfl


/-! ### setC -/

@[simp] theorem setC_A (v : Value) : (setC v s).A = s.A := rfl

@[simp] theorem setC_C (v : Value) : (setC v s).C = v := rfl

@[simp] theorem setC_D (v : Value) : (setC v s).D = s.D := rfl

@[simp] theorem setC_halt (v : Value) : (setC v s).halt = s.halt := rfl

@[simp] theorem setC_memory (v : Value) : (setC v s).memory = s.memory := rfl

@[simp] theorem setC_inputBuffer (v : Value) : (setC v s).inputBuffer = s.inputBuffer := rfl

@[simp] theorem setC_outputBuffer (v : Value) : (setC v s).outputBuffer = s.outputBuffer := rfl

@[simp] theorem setC_fault (v : Value) : (setC v s).fault = s.fault := rfl


/-! ### setD -/

@[simp] theorem setD_A (v : Value) : (setD v s).A = s.A := rfl

@[simp] theorem setD_C (v : Value) : (setD v s).C = s.C := rfl

@[simp] theorem setD_D (v : Value) : (setD v s).D = v := rfl

@[simp] theorem setD_halt (v : Value) : (setD v s).halt = s.halt := rfl

@[simp] theorem setD_memory (v : Value) : (setD v s).memory = s.memory := rfl

@[simp] theorem setD_inputBuffer (v : Value) : (setD v s).inputBuffer = s.inputBuffer := rfl

@[simp] theorem setD_outputBuffer (v : Value) : (setD v s).outputBuffer = s.outputBuffer := rfl

@[simp] theorem setD_fault (v : Value) : (setD v s).fault = s.fault := rfl


/-! ### appendOutput -/

@[simp] theorem appendOutput_A (v : Value) : (appendOutput v s).A = s.A := rfl

@[simp] theorem appendOutput_C (v : Value) : (appendOutput v s).C = s.C := rfl

@[simp] theorem appendOutput_D (v : Value) : (appendOutput v s).D = s.D := rfl

@[simp] theorem appendOutput_halt (v : Value) : (appendOutput v s).halt = s.halt := rfl

@[simp] theorem appendOutput_memory (v : Value) : (appendOutput v s).memory = s.memory := rfl

@[simp] theorem appendOutput_inputBuffer (v : Value) : (appendOutput v s).inputBuffer = s.inputBuffer := rfl

@[simp] theorem appendOutput_outputBuffer (v : Value) : (appendOutput v s).outputBuffer = s.outputBuffer ++ [v] := rfl

@[simp] theorem appendOutput_fault (v : Value) : (appendOutput v s).fault = s.fault := rfl


/-! ### setHalt -/

@[simp] theorem setHalt_A : (setHalt s).A = s.A := rfl

@[simp] theorem setHalt_C : (setHalt s).C = s.C := rfl

@[simp] theorem setHalt_D : (setHalt s).D = s.D := rfl

@[simp] theorem setHalt_halt : (setHalt s).halt = true := rfl

@[simp] theorem setHalt_memory : (setHalt s).memory = s.memory := rfl

@[simp] theorem setHalt_inputBuffer : (setHalt s).inputBuffer = s.inputBuffer := rfl

@[simp] theorem setHalt_outputBuffer : (setHalt s).outputBuffer = s.outputBuffer := rfl

@[simp] theorem setHalt_fault : (setHalt s).fault = s.fault := rfl


/-! ### advance -/

@[simp] theorem advance_A : (advance s).A = s.A := rfl

@[simp] theorem advance_C : (advance s).C = increment s.C := rfl

@[simp] theorem advance_D : (advance s).D = increment s.D := rfl

@[simp] theorem advance_halt : (advance s).halt = s.halt := rfl

@[simp] theorem advance_memory : (advance s).memory = s.memory := rfl

@[simp] theorem advance_inputBuffer : (advance s).inputBuffer = s.inputBuffer := rfl

@[simp] theorem advance_outputBuffer : (advance s).outputBuffer = s.outputBuffer := rfl

@[simp] theorem advance_fault : (advance s).fault = s.fault := rfl


/-! ### storeResult -/

@[simp] theorem storeResult_A (v : Value) : (storeResult v s).A = v := rfl

@[simp] theorem storeResult_C (v : Value) : (storeResult v s).C = s.C := rfl

@[simp] theorem storeResult_D (v : Value) : (storeResult v s).D = s.D := rfl

@[simp] theorem storeResult_halt (v : Value) : (storeResult v s).halt = s.halt := rfl

@[simp] theorem storeResult_memory (v : Value) : (storeResult v s).memory = s.memory.write s.D v := rfl

@[simp] theorem storeResult_inputBuffer (v : Value) : (storeResult v s).inputBuffer = s.inputBuffer := rfl

@[simp] theorem storeResult_outputBuffer (v : Value) : (storeResult v s).outputBuffer = s.outputBuffer := rfl

@[simp] theorem storeResult_fault (v : Value) : (storeResult v s).fault = s.fault := rfl


/-! ### takeRangeError -/

@[simp] theorem takeRangeError_A (e : Fault) (x : Int) : (takeRangeError e x s).A = (if Config.rangeErrorKeepsA s.A x then s.A else Config.maxValue) := rfl

@[simp] theorem takeRangeError_C (e : Fault) (x : Int) : (takeRangeError e x s).C = s.C := rfl

@[simp] theorem takeRangeError_D (e : Fault) (x : Int) : (takeRangeError e x s).D = s.D := rfl

@[simp] theorem takeRangeError_halt (e : Fault) (x : Int) : (takeRangeError e x s).halt = s.halt := rfl

@[simp] theorem takeRangeError_memory (e : Fault) (x : Int) : (takeRangeError e x s).memory = s.memory := rfl

@[simp] theorem takeRangeError_inputBuffer (e : Fault) (x : Int) : (takeRangeError e x s).inputBuffer = s.inputBuffer := rfl

@[simp] theorem takeRangeError_outputBuffer (e : Fault) (x : Int) : (takeRangeError e x s).outputBuffer = s.outputBuffer := rfl

@[simp] theorem takeRangeError_fault (e : Fault) (x : Int) : (takeRangeError e x s).fault = some e := rfl

/-! ### reads -/

@[simp] theorem readWord_eq (a : Value) : readWord a s = s.memory.read a := rfl

@[simp] theorem fetchWord_eq : fetchWord s = s.memory.read s.C := rfl

@[simp] theorem memoryOperand_eq : memoryOperand s = s.memory.read s.D := rfl

@[simp] theorem operandAddress_eq : operandAddress s = s.D := rfl

/-- Two states with the same fields are the same state. -/
theorem State.ext_fields (s t : State) (hA : s.A = t.A) (hC : s.C = t.C) (hD : s.D = t.D) (hh : s.halt = t.halt)
    (hm : s.memory = t.memory) (hi : s.inputBuffer = t.inputBuffer) (ho : s.outputBuffer = t.outputBuffer)
    (hf : s.fault = t.fault) : s = t := by
  cases s; cases t; simp_all

end Sys2Proof.Machine
end

