-- ==== Sys2Proof/Laws/Ops.lean ====
section
/-! SUPPORT. What each shared operation on the state can do, said once. -/

namespace Sys2Proof.Machine

/-- `popFront` (10_state.md R29): nothing on an empty queue, else the front element and the shortened queue. -/
theorem takeInput_cases (s : State) :
    (s.inputBuffer = [] ∧ takeInput s = none) ∨
      ∃ x xs, s.inputBuffer = x :: xs ∧ takeInput s = some (x, { s with inputBuffer := xs }) := by
  unfold takeInput
  cases h : s.inputBuffer with
  | nil => simp
  | cons x xs => simp

/-- The checked setter of `A` (10_state.md R24): the register holds the integer, or nothing is written. -/
theorem assignA_cases (x : Int) (s : State) :
    (isInDomain x = true ∧ ∃ v : Value, (v.val : Int) = x ∧ assignA x s = .ok (setA v s)) ∨
      (isInDomain x = false ∧ assignA x s = .error .rangeError) := by
  unfold assignA
  rcases checkDomain_cases x with ⟨h, v, hv, e⟩ | ⟨h, e⟩
  · exact .inl ⟨h, v, hv, by rw [e]⟩
  · exact .inr ⟨h, by rw [e]⟩

/-- On a `Value` the checked setters are the plain ones: the guard cannot fail (40_arithmetic_units.md R101). -/
theorem assign_value (v a : Value) (s : State) :
    assignA (v.val : Int) s = .ok (setA v s) ∧ assignC (v.val : Int) s = .ok (setC v s) ∧
      assignD (v.val : Int) s = .ok (setD v s) ∧ assignWord a (v.val : Int) s = .ok (storeWord a v s) := by
  simp [assignA, assignC, assignD, assignWord]

/-- The taking of a RangeError (60_exceptions.md R155): `A` is one of two values, the marker is set. -/
theorem takeRangeError_A_cases (e : Fault) (x : Int) (s : State) :
    (takeRangeError e x s).A = s.A ∨ (takeRangeError e x s).A = Config.maxValue := by
  rw [takeRangeError_A]
  split_ifs
  · exact .inl rfl
  · exact .inr rfl

/-- What OUT's test says (44_io.md R140). -/
theorem endOfOutput_iff (s : State) : endOfOutput s = true ↔ s.A.val = 59048 := by
  simp [endOfOutput, Fin.ext_iff]

end Sys2Proof.Machine
end

