-- ==== Sys2Proof/Laws/PerInstr.lean ====
section
/-! SUPPORT. The per-instruction family over the syntax: which terms the printer shows as a character (30_encoding.md
R76). -/

namespace Sys2Proof.Laws.PrintsAsCharacter

/-- A well-formed term prints as a character exactly when it is not of the default row. -/
def Statement (i : Instr) : Prop :=
  i.wf = true → ((∃ c, printWord (encode i) = .character c) ↔ ∀ w, i ≠ .other w)

theorem halt : Statement .halt := fun _ => ⟨fun _ _ => nofun, fun _ => ⟨33, by decide⟩⟩

theorem loadd : Statement .loadd := fun _ => ⟨fun _ _ => nofun, fun _ => ⟨42, by decide⟩⟩

theorem rot : Statement .rot := fun _ => ⟨fun _ _ => nofun, fun _ => ⟨62, by decide⟩⟩

theorem jump : Statement .jump := fun _ => ⟨fun _ _ => nofun, fun _ => ⟨94, by decide⟩⟩

theorem nop : Statement .nop := fun _ => ⟨fun _ _ => nofun, fun _ => ⟨95, by decide⟩⟩

theorem out : Statement .out := fun _ => ⟨fun _ _ => nofun, fun _ => ⟨123, by decide⟩⟩

theorem sub : Statement .sub := fun _ => ⟨fun _ _ => nofun, fun _ => ⟨124, by decide⟩⟩

theorem inp : Statement .inp := fun _ => ⟨fun _ _ => nofun, fun _ => ⟨125, by decide⟩⟩

theorem other (w : Value) : Statement (.other w) := by
  intro h
  have h' : commandWords.contains w = false := by simpa [Instr.wf] using h
  constructor
  · rintro ⟨c, hc⟩
    simp only [encode, printWord, h'] at hc
    cases hc
  · intro hn
    exact absurd rfl (hn w)

end Sys2Proof.Laws.PrintsAsCharacter
end

