-- ==== Sys2Proof/Laws/Step.lean ====
section
/-! SUPPORT. What a step and an event can do, said once: the inversion lemmas from which invariants are proved. -/

namespace Sys2Proof.Machine

/-- What IN can do (44_io.md R141, 60_exceptions.md R155): sentinel, element, or RangeError. -/
theorem execInp_cases (s : State) :
    (s.inputBuffer = [] ∧ execInp s = .next (advance (setA Config.maxValue s))) ∨
      ∃ x xs, s.inputBuffer = x :: xs ∧
        ((∃ v : Value, (v.val : Int) = x ∧ execInp s = .next (advance (setA v { s with inputBuffer := xs }))) ∨
          (isInDomain x = false ∧ execInp s = .next (takeRangeError .rangeError x { s with inputBuffer := xs }))) := by
  unfold execInp
  rcases takeInput_cases s with ⟨h, e⟩ | ⟨x, xs, h, e⟩
  · exact .inl ⟨h, by rw [e]⟩
  · refine .inr ⟨x, xs, h, ?_⟩
    rcases assignA_cases x { s with inputBuffer := xs } with ⟨_, v, hv, ea⟩ | ⟨hx, ea⟩
    · exact .inl ⟨v, hv, by rw [e]; simp only [ea]⟩
    · exact .inr ⟨hx, by rw [e]; simp only [ea]⟩

/-- What OUT can do (44_io.md R140). -/
theorem execOut_cases (s : State) :
    (s.A.val = 59048 ∧ execOut s = .next (setHalt s)) ∨
      (s.A.val ≠ 59048 ∧ execOut s = .next (advance (appendOutput s.A s))) := by
  unfold execOut
  by_cases h : s.A.val = 59048
  · exact .inl ⟨h, by rw [if_pos ((endOfOutput_iff s).2 h)]⟩
  · exact .inr ⟨h, by rw [if_neg (fun h' => h ((endOfOutput_iff s).1 h'))]⟩

/-- When a step answers a next state: the machine was halted and stays as it is, or it was neither halted nor faulted
and the fetched instruction ran. -/
theorem step_cases {s t : State} (h : step s = .next t) :
    (s.halt = true ∧ t = s) ∨
      (s.halt = false ∧ s.fault = none ∧ exec (decode (fetchWord s)) s = .next t) := by
  unfold step cycle at h
  cases hh : s.halt with
  | true =>
    simp only [hh, if_true, Host.Outcome.next.injEq] at h
    exact .inl ⟨rfl, h.symm⟩
  | false =>
    cases hf : s.fault with
    | none =>
      simp only [hh, hf, Bool.false_eq_true, if_false] at h
      exact .inr ⟨rfl, rfl, h⟩
    | some e => simp [hh, hf] at h

/-- When a host move answers a next state. -/
theorem hostMove_cases {untyped : Bool} {mv : HostMove} {s t : State} (h : hostMove untyped mv s = .next t) :
    (∃ xs, mv = .writeInput xs ∧ (untyped = true ∨ ∀ x ∈ xs, isInDomain x = true) ∧
        t = { s with inputBuffer := xs }) ∨
      (mv = .clearOutput ∧ t = { s with outputBuffer := [] }) := by
  cases mv with
  | writeInput xs =>
    simp only [hostMove] at h
    split at h
    · rename_i hx
      simp only [Host.Outcome.next.injEq] at h
      exact .inl ⟨xs, rfl, by simpa using hx, h.symm⟩
    · cases h
  | clearOutput =>
    simp only [hostMove, Host.Outcome.next.injEq] at h
    exact .inr ⟨rfl, h.symm⟩

/-- A run of one event more, at its front. -/
theorem run_cons_cases {untyped : Bool} {e : Event} {es : List Event} {s t : State}
    (h : run untyped (e :: es) s = .next t) : ∃ u, event untyped e s = .next u ∧ run untyped es u = .next t := by
  simp only [run] at h
  split at h
  · exact ⟨_, by assumption, h⟩
  · cases h
  · cases h

/-- The induction over runs, once: a property that every event keeps holds after every run. -/
theorem run_keeps {untyped : Bool} {P : State → Prop}
    (hP : ∀ e s t, P s → event untyped e s = .next t → P t) {es : List Event} {s t : State} (hs : P s)
    (h : run untyped es s = .next t) : P t := by
  induction es generalizing s with
  | nil =>
    simp only [run, Host.Outcome.next.injEq] at h
    exact h ▸ hs
  | cons e es ih =>
    obtain ⟨u, hu, h⟩ := run_cons_cases h
    exact ih (hP e s u hs hu) h

end Sys2Proof.Machine
end

