-- ==== Sys2Proof/Tests/Slice0.lean ====
section
/-! SUPPORT. The model's own tests. Expected values are those of spec/95_test_vectors.md (the vector's id is named) or
of the rules' own examples; the decoding tests write each word out trit by trit from 30_encoding.md R63. Then, for each
statement with hypotheses, a concrete state and operands that meet them together. -/

namespace Sys2Proof.Tests

open Sys2Proof.Machine

/-- A machine with these registers, memory and queues, neither halted nor faulted. -/
def mk (a c d : Value) (m : Memory) (xs : List Int) (os : List Value) : State :=
  { State.reset with A := a, C := c, D := d, memory := m, inputBuffer := xs, outputBuffer := os }

/-- Whether a call answers a next state of which `p` holds. -/
def nextIs (o : Host.Outcome State Fault Refusal) (p : State → Bool) : Bool :=
  match o with
  | .next t => p t
  | .fault _ => false
  | .refused _ => false

/-- Registers and flag, as spec/95_test_vectors.md writes a state. -/
def regs (t : State) : Value × Value × Value × Bool := (t.A, t.C, t.D, t.halt)

/-! ## WellFormed: the one check refuses a command word in the default row -/

theorem test_wf_refuses_a_command_word : (Instr.other 33).wf = false ∧ (Instr.other 125).wf = false := by decide

theorem test_wf_accepts_other_words : (Instr.other 0).wf = true ∧ (Instr.other 39386).wf = true := by decide

/-! ## Decoding, each word from the trits of R63 -/

theorem test_decode_halt : decode (wordOfTrits [0, 0, 0, 0, 0, 0, 1, 0, 2, 0]) = .halt := by decide

theorem test_decode_loadd : decode (wordOfTrits [0, 0, 0, 0, 0, 0, 1, 1, 2, 0]) = .loadd := by decide

theorem test_decode_rot : decode (wordOfTrits [0, 0, 0, 0, 0, 0, 2, 0, 2, 2]) = .rot := by decide

theorem test_decode_jump : decode (wordOfTrits [0, 0, 0, 0, 0, 1, 0, 1, 1, 1]) = .jump := by decide

theorem test_decode_nop : decode (wordOfTrits [0, 0, 0, 0, 0, 1, 0, 1, 1, 2]) = .nop := by decide

theorem test_decode_out : decode (wordOfTrits [0, 0, 0, 0, 0, 1, 1, 1, 2, 0]) = .out := by decide

theorem test_decode_sub : decode (wordOfTrits [0, 0, 0, 0, 0, 1, 1, 1, 2, 1]) = .sub := by decide

theorem test_decode_inp : decode (wordOfTrits [0, 0, 0, 0, 0, 1, 1, 1, 2, 2]) = .inp := by decide

theorem test_decode_other : decode (wordOfTrits [2, 2, 2, 2, 2, 2, 2, 2, 2, 2]) = .other 59048 ∧
    decode (wordOfTrits [1, 0, 0, 0, 0, 0, 1, 0, 2, 0]) = .other 19716 := by decide

theorem test_table_word : decodeTableWord 16 123 = some .out ∧ decodeTableWord 16 59049 = none := by decide

theorem test_print_word : printWord 123 = .character 123 ∧ printWord 39386 = .decimal 39386 := by decide

/-! ## Memory: the canonical form, and a list that is not in it for each reason -/

theorem test_memory_wf : Memory.wf [(0, 42), (7, 1), (59048, 59048)] ∧ ¬ Memory.wf [(7, 1), (0, 42)] ∧
    ¬ Memory.wf [(7, 1), (7, 2)] ∧ ¬ Memory.wf [(7, 0)] := by decide

theorem test_memory_write : Memory.write [(3, 9)] 1 5 = [(1, 5), (3, 9)] ∧ Memory.write [(1, 5), (3, 9)] 1 0 = [(3, 9)] := by
  decide

/-! ## Arithmetic (95_test_vectors.md 2.1 to 2.4) -/

theorem test_isInDomain : isInDomain 0 = true ∧ isInDomain 59048 = true ∧ isInDomain 59049 = false ∧
    isInDomain (-1) = false := by decide

theorem test_increment : incrementBy 59048 1 = 0 ∧ incrementBy 59048 59048 = 59047 ∧ incrementBy 100 59000 = 51 := by
  decide

theorem test_rotateRight : rotateRight 1 = 19683 ∧ rotateRight 62 = 39386 ∧ rotateRight 12345 = 4115 ∧
    rotateRight 59047 = 39365 := by decide

theorem test_rotateRightBy : rotateRightBy 12345 2 = 40737 ∧ rotateRightBy 12345 12 = 40737 ∧ rotateRightBy 1 9 = 3 := by
  decide

theorem test_subtract : subtract 72 124 = 203 ∧ subtract 12345 54321 = 38970 ∧ subtract 54321 12345 = 49509 ∧
    subtract 29524 59048 = 59048 := by decide

theorem test_subtractPeeling : subtractPeeling 10 12345 54321 = 38970 := by decide

/-! ## One step of each instruction (95_test_vectors.md 2.6) -/

/-- T1. -/
theorem test_step_halt : nextIs (step (mk 7 5 9 [(5, 33)] [] [])) (fun t => regs t = (7, 5, 9, true)) = true := by
  decide

/-- T2. -/
theorem test_step_already_halted :
    nextIs (step { mk 7 5 9 [(5, 125)] [1] [] with halt := true })
      (fun t => regs t = (7, 5, 9, true) ∧ t.inputBuffer = [1]) = true := by decide

/-- T3. -/
theorem test_step_loadd_lockstep :
    nextIs (step (mk 0 0 0 [(0, 42)] [] [])) (fun t => regs t = (0, 1, 43, false)) = true := by decide

/-- T4. -/
theorem test_step_loadd_wraps :
    nextIs (step (mk 0 10 20 [(10, 42), (20, 59048)] [] [])) (fun t => regs t = (0, 11, 0, false)) = true := by decide

/-- T6. -/
theorem test_step_rot_overwrites_itself :
    nextIs (step (mk 5 0 0 [(0, 62)] [] [])) (fun t => regs t = (39386, 1, 1, false) ∧ t.memory = [(0, 39386)]) = true := by
  decide

/-- T7. -/
theorem test_step_rot : nextIs (step (mk 5 3 100 [(3, 62), (100, 1)] [] []))
    (fun t => regs t = (19683, 4, 101, false) ∧ t.memory = [(3, 62), (100, 19683)]) = true := by decide

/-- T10. -/
theorem test_step_jump :
    nextIs (step (mk 0 1 43 [(1, 94), (43, 33)] [] [])) (fun t => regs t = (0, 34, 44, false)) = true := by decide

/-- T12. -/
theorem test_step_jump_wraps :
    nextIs (step (mk 0 7 9 [(7, 94), (9, 59048)] [] [])) (fun t => regs t = (0, 0, 10, false)) = true := by decide

/-- T13. -/
theorem test_step_nop :
    nextIs (step (mk 4 10 10 [(10, 95)] [] [])) (fun t => regs t = (4, 11, 11, false)) = true := by decide

/-- T16. -/
theorem test_step_other_wraps_C :
    nextIs (step (mk 4 59048 7 [] [] [])) (fun t => regs t = (4, 0, 8, false)) = true := by decide

/-- T17. -/
theorem test_step_other_wraps_D :
    nextIs (step (mk 4 7 59048 [] [] [])) (fun t => regs t = (4, 8, 0, false)) = true := by decide

/-- T19. -/
theorem test_step_out : nextIs (step (mk 0 1 1 [(1, 123)] [] [9]))
    (fun t => regs t = (0, 2, 2, false) ∧ t.outputBuffer = [9, 0]) = true := by decide

/-- T21. -/
theorem test_step_out_sentinel : nextIs (step (mk 59048 1 1 [(1, 123)] [] []))
    (fun t => regs t = (59048, 1, 1, true) ∧ t.outputBuffer = []) = true := by decide

/-- T22. -/
theorem test_step_sub : nextIs (step (mk 72 1 1 [(1, 124)] [] []))
    (fun t => regs t = (203, 2, 2, false) ∧ t.memory = [(1, 203)]) = true := by decide

/-- T24: the machine's store, which lists a new word. -/
theorem test_step_sub_stores_A : nextIs (step (mk 33 2 44 [(2, 124)] [] []))
    (fun t => regs t = (33, 3, 45, false) ∧ t.memory = [(2, 124), (44, 33)]) = true := by decide

/-- T27. -/
theorem test_step_in : nextIs (step (mk 0 0 0 [(0, 125)] [72, 105] []))
    (fun t => regs t = (72, 1, 1, false) ∧ t.inputBuffer = [105]) = true := by decide

/-- T31, all but `A`, which the spec leaves open. -/
theorem test_step_in_faults : nextIs (step (mk 5 0 0 [(0, 125)] [59049, 1] []))
    (fun t => t.fault = some .rangeError ∧ t.C = 0 ∧ t.D = 0 ∧ t.halt = false ∧ t.inputBuffer = [1]) = true := by decide

/-! ## The loader (95_test_vectors.md 2.5); 40 and 41 are the parentheses -/

/-- L2, with the comment "(c)". -/
theorem test_load_comment : load defaultWs [40, 99, 41, 33] = .ok [33] := by decide

/-- L3. -/
theorem test_load_whitespace : load defaultWs [32, 10, 33, 9] = .ok [33] := by decide

/-- L4. -/
theorem test_load_every_command :
    load defaultWs [33, 42, 62, 94, 95, 123, 124, 125] = .ok [33, 42, 62, 94, 95, 123, 124, 125] := by decide

/-- L5, L16, and the "é" of L19. -/
theorem test_load_invalid : load defaultWs [33, 120] = .syntaxError .invalidCharacter ∧
    load defaultWs [33, 41] = .syntaxError .invalidCharacter ∧
    load defaultWs [233] = .syntaxError .invalidCharacter := by decide

/-- L6, L7. -/
theorem test_load_no_nesting : load defaultWs [40, 40, 97, 41, 33] = .ok [33] ∧
    load defaultWs [40, 97, 41, 41, 33] = .syntaxError .invalidCharacter := by decide

/-- L9. -/
theorem test_load_unterminated : load defaultWs [33, 32, 40, 32, 120] = .syntaxError .unterminatedComment := by decide

/-- R69, D4: with `WS` not given, U+00A0, a control character and "é" outside a comment are refused; inside one they are
ignored; and the ASCII characters of L19 ("A", "0", "<", "+", "~") are errors. -/
theorem test_load_open_whitespace : load knownWs [33, 0xA0] = .refused (.whitespaceOpen 0xA0) ∧
    load knownWs [0x1B] = .refused (.whitespaceOpen 0x1B) ∧ load knownWs [233] = .refused (.whitespaceOpen 233) ∧
    load knownWs [33, 40, 0xA0, 0x1B, 233, 41] = .ok [33] ∧
    [65, 48, 60, 43, 126].all (fun c => load knownWs [c] == .syntaxError .invalidCharacter) = true := by decide

/-- P7's image. -/
theorem test_construct_memory : resetWith [42, 125, 124] = mk 0 0 0 [(0, 42), (1, 125), (2, 124)] [] [] := by decide

/-! ## Host moves and results -/

theorem test_host_input_out_of_domain : nextIs (hostMove false (.writeInput [59049]) State.reset) (fun _ => true) = false ∧
    nextIs (hostMove true (.writeInput [59049]) State.reset) (fun t => t.inputBuffer = [59049]) = true := by decide

theorem test_host_view : hostView (mk 1 2 3 [(0, 33)] [4] [5]) =
    { A := 1, C := 2, D := 3, halt := false, inputBuffer := [4], outputBuffer := [5] } := by decide

theorem test_step_kinds : stepKind (mk 0 0 0 [(0, 33)] [] []) = some .haltedNow ∧
    stepKind (mk 0 0 0 [(0, 125)] [-1] []) = some .faulted ∧ stepKind State.reset = some .advanced := by decide

/-! ## Witnesses: the hypotheses of each statement can be met -/

theorem witness_HaltSetsTheFlagAndNothingElse : (mk 7 5 9 [(5, 33)] [] []).halt = false ∧
    (mk 7 5 9 [(5, 33)] [] []).fault = none ∧ ((mk 7 5 9 [(5, 33)] [] []).memory.read 5).val = 33 := by decide

theorem witness_OtherWordsOnlyAdvance : (126 : Value) ∉ commandWords ∧ (0 : Value) ∉ commandWords := by decide

theorem witness_OutAppendsTheAccumulatorOrHalts : (mk 59047 1 1 [(1, 123)] [] []).A.val ≠ 59048 ∧
    (mk 59048 1 1 [(1, 123)] [] []).A.val = 59048 ∧ ∀ a : Value, (mk a 1 1 [(1, 123)] [] []).halt = false ∧
      (mk a 1 1 [(1, 123)] [] []).fault = none ∧ ((mk a 1 1 [(1, 123)] [] []).memory.read 1).val = 123 :=
  ⟨by decide, by decide, fun _ => ⟨rfl, rfl, rfl⟩⟩

theorem witness_InDeliversTheFrontElementOrTheSentinel :
    (mk 5 0 0 [(0, 125)] [] []).inputBuffer = [] ∧
    (mk 5 0 0 [(0, 125)] [0, 1] []).inputBuffer = (((0 : Value).val : Int)) :: [1] ∧
    (mk 5 0 0 [(0, 125)] [59048, 1] []).inputBuffer = (((59048 : Value).val : Int)) :: [1] := by decide

theorem witness_InTakesARangeErrorOutOfDomain_low :
    (mk 5 0 0 [(0, 125)] [-1, 1] []).inputBuffer = -1 :: [1] ∧ ((-1 : Int) < 0 ∨ 59048 < (-1 : Int)) := by decide

theorem witness_InTakesARangeErrorOutOfDomain_high :
    (mk 5 0 0 [(0, 125)] [59049, 1] []).inputBuffer = 59049 :: [1] ∧ ((59049 : Int) < 0 ∨ 59048 < (59049 : Int)) := by
  decide

theorem witness_FrameOfTheInstructionsThatStoreNothing :
    ∃ t, (Instr.loadd = .loadd ∨ Instr.loadd = .jump ∨ Instr.loadd = .nop ∨ ∃ w, Instr.loadd = .other w) ∧
      exec .loadd (mk 1 0 59048 [(0, 42)] [2] [3]) = .next t := ⟨_, .inl rfl, rfl⟩

theorem witness_FrameOfTheStoringInstructions :
    ∃ t, (Instr.rot = .rot ∨ Instr.rot = .sub) ∧ exec .rot (mk 1 0 7 [(0, 62), (7, 5)] [2] [3]) = .next t :=
  ⟨_, .inl rfl, rfl⟩

theorem witness_FrameOfHaltAndTheIoInstructions :
    ∃ t, (Instr.inp = .halt ∨ Instr.inp = .out ∨ Instr.inp = .inp) ∧ exec .inp (mk 1 0 7 [(0, 125)] [2] [3]) = .next t :=
  ⟨_, .inr (.inr rfl), rfl⟩

theorem witness_StepRunsTheDecodedInstruction : (mk 0 59048 0 [(59048, 94)] [] []).halt = false ∧
    (mk 0 59048 0 [(59048, 94)] [] []).fault = none ∧ Instr.jump.wf = true ∧
    decode ((mk 0 59048 0 [(59048, 94)] [] []).memory.read 59048) = .jump := by decide

theorem witness_StepOnAHaltedMachineChangesNothing :
    ({ mk 7 5 9 [(5, 125)] [1] [] with halt := true } : State).halt = true := rfl

theorem witness_StepOnAFaultedMachineIsRefused :
    ({ State.reset with fault := some .rangeError } : State).halt = false ∧
      ({ State.reset with fault := some .rangeError } : State).fault ≠ none := by decide

theorem witness_EveryInstructionAndEveryStepCompletes : (mk 1 2 3 [] [] []).fault = none := rfl

/-- A step that advances (JUMP) and one that does not (HALT). -/
theorem witness_AdvanceFollowsTheExecutePhase :
    (∃ t, step (mk 0 7 9 [(7, 94), (9, 59048)] [] []) = .next t ∧
      stepKind (mk 0 7 9 [(7, 94), (9, 59048)] [] []) = some .advanced) ∧
    ∃ t, step (mk 0 7 9 [(7, 33)] [] []) = .next t ∧ stepKind (mk 0 7 9 [(7, 33)] [] []) ≠ some .advanced :=
  ⟨⟨_, rfl, by decide⟩, ⟨_, rfl, by decide⟩⟩

/-- One call for each result: true, false, neither. -/
theorem witness_ResultOfAStepTellsTheFlag :
    (∃ t, step State.reset = .next t ∧ stepKind State.reset = some .advanced) ∧
    (∃ t, step (mk 59048 0 0 [(0, 123)] [] []) = .next t ∧
      stepKind (mk 59048 0 0 [(0, 123)] [] []) = some .haltedNow) ∧
    ∃ t, step (mk 0 0 0 [(0, 125)] [-1] []) = .next t ∧ stepKind (mk 0 0 0 [(0, 125)] [-1] []) = some .faulted :=
  ⟨⟨_, rfl, by decide⟩, ⟨_, rfl, by decide⟩, ⟨_, rfl, by decide⟩⟩

theorem witness_StepHasOneOfFourOutcomes : (mk 0 0 0 [(0, 125)] [-1] []).fault = none := rfl

theorem witness_RotInLockstepOverwritesItself : (mk 5 4 4 [(4, 62)] [] []).halt = false ∧
    (mk 5 4 4 [(4, 62)] [] []).fault = none ∧ (mk 5 4 4 [(4, 62)] [] []).D = (mk 5 4 4 [(4, 62)] [] []).C ∧
    ((mk 5 4 4 [(4, 62)] [] []).memory.read 4).val = 62 := by decide

/-- P7: SUB stores 33 at 44, and a state with `C = 44` fetches it. -/
theorem witness_LaterFetchSeesTheStoredWord :
    ∃ t u : State, step (mk 33 2 44 [(2, 124)] [] []) = .next t ∧ (mk 33 2 44 [(2, 124)] [] []).halt = false ∧
      ((mk 33 2 44 [(2, 124)] [] []).memory.read 2).val = 124 ∧ u.memory.read 44 = t.memory.read 44 ∧ u.C = 44 ∧
      u.halt = false ∧ u.fault = none :=
  ⟨_, mk 33 44 86 [(2, 124), (44, 33)] [] [], rfl, rfl, by decide, by decide, rfl, rfl, rfl⟩

theorem witness_PlacedWordRunsNext : decodeTableWord 16 125 = some .inp ∧ decodeTableWord 16 59048 = some (.other 59048) := by
  decide

theorem witness_OnlyHaltAndSentinelOutSetTheFlag :
    ∃ t, step (mk 59048 1 1 [(1, 123)] [] []) = .next t ∧ (mk 59048 1 1 [(1, 123)] [] []).halt = false ∧ t.halt = true :=
  ⟨_, rfl, rfl, by decide⟩

theorem witness_OnlyRotAndSubWriteMemory :
    ∃ t, step (mk 5 3 100 [(3, 62), (100, 1)] [] []) = .next t ∧
      t.memory.read 100 ≠ (mk 5 3 100 [(3, 62), (100, 1)] [] []).memory.read 100 := ⟨_, rfl, by decide⟩

theorem witness_OnlyOutWritesTheOutputQueue :
    ∃ t, step (mk 59047 1 1 [(1, 123)] [] []) = .next t ∧ t.outputBuffer ≠ (mk 59047 1 1 [(1, 123)] [] []).outputBuffer :=
  ⟨_, rfl, by decide⟩

/-- IN consumes; SUB, whose word is the one below, and a halted machine at IN do not look. -/
theorem witness_OnlyInConsumesTheInputQueue :
    (∃ t, step (mk 0 0 0 [(0, 125)] [59048] []) = .next t ∧
      t.inputBuffer ≠ (mk 0 0 0 [(0, 125)] [59048] []).inputBuffer) ∧
    (∃ t, step (mk 0 0 0 [(0, 124)] [59048] []) = .next t ∧ ((mk 0 0 0 [(0, 124)] [59048] []).memory.read 0).val ≠ 125) ∧
    ∃ t, step { mk 0 0 0 [(0, 125)] [1] [] with halt := true } = .next t ∧
      ({ mk 0 0 0 [(0, 125)] [1] [] with halt := true } : State).halt = true :=
  ⟨⟨_, rfl, by decide⟩, ⟨_, rfl, by decide⟩, ⟨_, rfl, rfl⟩⟩

/-- One step for each of the three writers, IN on an element and on an empty queue. (Whether `A` changes on an
out-of-domain element is open, log 4.) -/
theorem witness_OnlyRotSubAndInWriteTheAccumulator :
    (∃ t, step (mk 5 0 0 [(0, 62)] [] []) = .next t ∧ t.A ≠ (mk 5 0 0 [(0, 62)] [] []).A) ∧
    (∃ t, step (mk 72 0 0 [(0, 124)] [] []) = .next t ∧ t.A ≠ (mk 72 0 0 [(0, 124)] [] []).A) ∧
    (∃ t, step (mk 5 0 0 [(0, 125)] [0] []) = .next t ∧ t.A ≠ (mk 5 0 0 [(0, 125)] [0] []).A) ∧
    ∃ t, step (mk 5 0 0 [(0, 125)] [] []) = .next t ∧ t.A ≠ (mk 5 0 0 [(0, 125)] [] []).A :=
  ⟨⟨_, rfl, by decide⟩, ⟨_, rfl, by decide⟩, ⟨_, rfl, by decide⟩, ⟨_, rfl, by decide⟩⟩

theorem witness_RangeErrorComesOnlyFromInput :
    ∃ t, step (mk 5 0 0 [(0, 125)] [59049, 1] []) = .next t ∧ (mk 5 0 0 [(0, 125)] [59049, 1] []).halt = false ∧
      t.fault ≠ none := ⟨_, rfl, rfl, by decide⟩

theorem witness_PointerDistanceIsKept :
    ∃ t, step (mk 0 59048 7 [] [] []) = .next t ∧ ((mk 0 59048 7 [] [] []).memory.read 59048).val ≠ 42 ∧
      ((mk 0 59048 7 [] [] []).memory.read 59048).val ≠ 94 := ⟨_, rfl, by decide, by decide⟩

theorem witness_StepKeepsTheInvariant :
    ∃ t, (mk 59047 1 1 [(1, 123)] [] [0]).Inv ∧ step (mk 59047 1 1 [(1, 123)] [] [0]) = .next t :=
  ⟨_, ⟨by decide, by simp [mk], by decide⟩, rfl⟩

theorem witness_TypedStepsNeverFault : (mk 5 0 0 [(0, 125)] [0, 59048] []).Typed := ⟨by decide, rfl⟩

/-- The text of P9 with input, a step, and a cleared output. -/
theorem witness_RunsOfConstructedMachinesKeepTheInvariants :
    ∃ s t, constructWith defaultWs [125, 123, 33] = .ok s ∧
      run false [.host (.writeInput [72]), .step, .host .clearOutput] s = .next t := ⟨_, _, rfl, rfl⟩

theorem witness_HaltedMachinesAreFrozen :
    ∃ t, ({ mk 7 5 9 [(5, 125)] [1] [3] with halt := true } : State).halt = true ∧
      run false [.step, .step] { mk 7 5 9 [(5, 125)] [1] [3] with halt := true } = .next t ∧
      ∀ e ∈ [Event.step, .step], e = .step := ⟨_, rfl, rfl, by decide⟩

/-- One step of the text "_" : the only state about to step holds 95. -/
theorem witness_LockstepLastsUntilAPointerLoad :
    ∃ s t, constructWith defaultWs [95] = .ok s ∧ run false [.step] s = .next t ∧
      ∀ (before after : List Event) (u : State), [Event.step] = before ++ .step :: after →
        run false before s = .next u → u.halt = false →
        (u.memory.read u.C).val ≠ 42 ∧ (u.memory.read u.C).val ≠ 94 := by
  refine ⟨_, _, rfl, rfl, fun before after u h hu _ => ?_⟩
  cases before with
  | nil => cases hu; decide
  | cons e es => simp at h

theorem witness_LapOverNoOperationsReturns : State.reset.halt = false ∧ State.reset.fault = none ∧
    (∀ a : Value, (State.reset.memory.read a).val = 95 ∨ State.reset.memory.read a ∉ commandWords) ∧
    59049 % 59049 = 0 :=
  ⟨rfl, rfl, fun _ => .inr (by show (0 : Value) ∉ commandWords; decide), Nat.mod_self _⟩

theorem witness_OutputHasNoEffectOnTheRun : ∃ t, core.run 1 (mk 72 1 1 [(1, 123)] [] [9]) = .next t := ⟨_, rfl⟩

theorem witness_HostMovesTouchOnlyTheQueues :
    (∀ x ∈ ([0, 59048] : List Int), 0 ≤ x ∧ x ≤ 59048) ∧ (∃ x ∈ ([-1] : List Int), x < 0 ∨ 59048 < x) ∧
      ∃ x ∈ ([59049] : List Int), x < 0 ∨ 59048 < x := by decide

theorem witness_IncrementIsModular : (59047 : Value).val ≤ 59047 ∧ (59048 : Value).val = 59048 ∧
    ((59049 : Int) < 0 ∨ 59048 < (59049 : Int)) ∧ ((-1 : Int) < 0 ∨ 59048 < (-1 : Int)) := by decide

theorem witness_RotationMovesEveryDigitDown : 8 < 9 ∧ 0 < 9 := by decide

theorem witness_RotationLaws : (59046 : Value).val % 3 = 0 ∧ (1 ≤ 9 ∧ 9 ≤ 9) ∧ (1 ≤ 1 ∧ 1 ≤ 9) := by decide

theorem witness_SubtractionWorksDigitByDigit : 0 < 10 ∧ 9 < 10 ∧
    ((-1 : Int) < 0 ∨ 59048 < (-1 : Int) ∨ (0 : Int) < 0 ∨ 59048 < (0 : Int)) ∧
    ((0 : Int) < 0 ∨ 59048 < (0 : Int) ∨ (59049 : Int) < 0 ∨ 59048 < (59049 : Int)) := by decide

theorem witness_SubtractionLaws : ∀ i < 10, (digit i (29524 : Value)).val ≤ (digit i (59048 : Value)).val := by
  intro i hi
  interval_cases i <;> decide

theorem witness_UnitsRejectOutOfDomainArguments : ((59049 : Int) < 0 ∨ 59048 < (59049 : Int)) ∧
    ((-1 : Int) < 0 ∨ 59048 < (-1 : Int)) ∧
    (((0 : Int) < 0 ∨ 59048 < (0 : Int)) ∨ ((59049 : Int) < 0 ∨ 59048 < (59049 : Int))) := by decide

theorem witness_SettersCheckTheDomain :
    ((59049 : Int) < 0 ∨ 59048 < (59049 : Int)) ∧ ((-1 : Int) < 0 ∨ 59048 < (-1 : Int)) := by decide

theorem witness_DecodeAndEncodeAgree : (Instr.other 126).wf = true ∧ Instr.sub.wf = true := by decide

theorem witness_CommentsAreSkipped : 41 ∉ ([40, 33, 120] : List CodePoint) := by decide

theorem witness_UnterminatedCommentsFail : 41 ∉ ([120, 40] : List CodePoint) := by decide

/-- A text within the limit and, of the same word, one beyond it; and a whitespace character. -/
theorem witness_CommandTextsLoadUpToTheLimit : RespectsKnownWs defaultWs ∧
    (∀ w ∈ ([33, 125] : List Value), w ∈ commandWords) ∧
    (∀ n, (∀ w ∈ List.replicate n (95 : Value), w ∈ commandWords) ∧ (List.replicate n (95 : Value)).length = n) ∧
    (10 : CodePoint) ≠ 40 ∧ defaultWs 10 = some true :=
  ⟨respectsKnownWs_defaultWs, by simp [commandWords],
    fun n => ⟨fun w h => by rw [List.eq_of_mem_replicate h]; decide, List.length_replicate⟩, by decide, by decide⟩

/-- A comment, a space and a command, then ")". -/
theorem witness_FirstInvalidCharacterFailsTheLoad : scan knownWs false [] [40, 120, 41, 32, 33] = .ok [33] ∧
    (41 : CodePoint) ≠ 40 ∧ knownWs 41 = some false ∧ ∀ w ∈ commandWords, w.val ≠ 41 :=
  ⟨by decide, by decide, by decide, by simp [commandWords]⟩

theorem witness_LoadedImageIsTheCommandsOutsideComments :
    RespectsKnownWs defaultWs ∧ load defaultWs [40, 33, 41, 10, 42] = .ok [42] :=
  ⟨respectsKnownWs_defaultWs, by decide⟩

theorem witness_ConstructionGivesTheResetState : load defaultWs [33, 10, 42] = .ok [33, 42] := by decide

theorem witness_ResetMemoryIsAPrefixOfCommands : ∃ s, constructWith defaultWs [33, 42] = .ok s := ⟨_, rfl⟩

theorem witness_EveryOtherWordIsANoOperation : (mk 0 59048 0 [] [] []).halt = false ∧
    (mk 0 59048 0 [] [] []).fault = none ∧ (mk 0 59048 0 [] [] []).memory.read 59048 ∉ commandWords := by decide

/-- A text with a meaning under the default set, which keeps what is known; and U+00A0 after a comment and a command. -/
theorem witness_LoaderMeaningsDoNotDependOnOpenWhitespace :
    RespectsKnownWs defaultWs ∧ load knownWs [33, 32] = .ok [33] ∧
      (∀ why, Loaded.ok [33] ≠ (.refused why : Loaded (List Value))) ∧
      scan knownWs false [] [40, 0xA0, 41, 33] = .ok [33] ∧ (0xA0 : CodePoint) ≠ 40 ∧ knownWs 0xA0 = none :=
  ⟨respectsKnownWs_defaultWs, by decide, nofun, by decide, by decide, by decide⟩

end Sys2Proof.Tests
end

namespace Sys2Proof.Machine

/-! # The domain check on an integer outside the domain (40_arithmetic_units.md R91, R100) -/

theorem isInDomain_eq_false_iff (x : Int) : isInDomain x = false ↔ x < 0 ∨ 59048 < x := by
  rw [← Bool.not_eq_true, isInDomain_iff]
  omega

theorem checkDomain_eq_error {x : Int} (hx : isInDomain x = false) : checkDomain x = .error .rangeError := by
  simp [checkDomain, hx]

/-! # What a completed instruction and a completed step did

`ExecTo` lists the ways in which an instruction completes, one constructor for each effect that the spec gives it;
`exec_next_iff` and `step_next_iff` tie it to `exec` and `step`. An equivalence, so that a proof can take a step apart
and also build the step of a changed state. -/

/-- The instruction `i`, executed in `s`, completes in the state `t` (41_instruction_cycle.md R113, R114). -/
inductive ExecTo : Instr → State → State → Prop
  /-- `!` (42_control.md R120). -/
  | halt {s : State} : ExecTo .halt s (setHalt s)
  /-- `*` (43_data.md R130). -/
  | loadd {s : State} : ExecTo .loadd s (advance (setD (s.memory.read s.D) s))
  /-- `>` (43_data.md R131). -/
  | rot {s : State} : ExecTo .rot s (advance (storeResult (rotateRight (s.memory.read s.D)) s))
  /-- `^` (42_control.md R121). -/
  | jump {s : State} : ExecTo .jump s (advance (setC (s.memory.read s.D) s))
  /-- `_` (42_control.md R122). -/
  | nop {s : State} : ExecTo .nop s (advance s)
  /-- OUT at the sentinel (44_io.md R140). -/
  | outHalt {s : State} (hA : s.A.val = 59048) : ExecTo .out s (setHalt s)
  /-- OUT of any other accumulator (44_io.md R140). -/
  | outAppend {s : State} (hA : s.A.val ≠ 59048) : ExecTo .out s (advance (appendOutput s.A s))
  /-- `|` (43_data.md R132). -/
  | sub {s : State} : ExecTo .sub s (advance (storeResult (subtract s.A (s.memory.read s.D)) s))
  /-- IN on the empty queue (44_io.md R141). -/
  | inpSentinel {s : State} (hq : s.inputBuffer = []) : ExecTo .inp s (advance (setA Config.maxValue s))
  /-- IN on an in-domain front element (44_io.md R141). -/
  | inpElement {s : State} {v : Value} {xs : List Int} (hq : s.inputBuffer = (v.val : Int) :: xs) :
      ExecTo .inp s (advance (setA v { s with inputBuffer := xs }))
  /-- IN on an out-of-domain front element (60_exceptions.md R155). -/
  | inpFault {s : State} {x : Int} {xs : List Int} (hq : s.inputBuffer = x :: xs) (hx : isInDomain x = false) :
      ExecTo .inp s (takeRangeError .rangeError x { s with inputBuffer := xs })
  /-- Any other word (42_control.md R123). -/
  | other {s : State} {w : Value} : ExecTo (.other w) s (advance s)

/-- `exec` answers exactly the state that `ExecTo` gives. -/
theorem exec_next_iff (i : Instr) (s t : State) : exec i s = .next t ↔ ExecTo i s t := by
  constructor
  · intro h
    cases i with
    | halt => cases h; exact .halt
    | loadd => cases h; exact .loadd
    | rot => cases h; exact .rot
    | jump => cases h; exact .jump
    | nop => cases h; exact .nop
    | out =>
      obtain ⟨hA, e⟩ | ⟨hA, e⟩ := execOut_cases s
      · cases e.symm.trans h; exact .outHalt hA
      · cases e.symm.trans h; exact .outAppend hA
    | sub => cases h; exact .sub
    | inp =>
      obtain ⟨hq, e⟩ | ⟨x, xs, hq, ⟨v, rfl, e⟩ | ⟨hx, e⟩⟩ := execInp_cases s
      · cases e.symm.trans h; exact .inpSentinel hq
      · cases e.symm.trans h; exact .inpElement hq
      · cases e.symm.trans h; exact .inpFault hq hx
    | other w => cases h; exact .other
  · intro h
    cases h with
    | outHalt hA => exact if_pos ((endOfOutput_iff s).2 hA)
    | outAppend hA => exact if_neg (mt (endOfOutput_iff s).1 hA)
    | inpSentinel hq => simp [exec, execInp, takeInput, hq]
    | inpElement hq => simp [exec, execInp, takeInput, hq, assignA]
    | inpFault hq hx => simp [exec, execInp, takeInput, hq, assignA, checkDomain_eq_error hx]
    | _ => rfl

/-- Every word is the word of the instruction that it decodes to (30_encoding.md R63, R65). -/
theorem encode_decode (w : Value) : encode (decode w) = w := by
  unfold decode
  split_ifs
  case neg => rfl
  all_goals exact Fin.ext (Eq.symm (by assumption))

/-- The fetched word, as a number, once the decoder has named its instruction. -/
theorem val_of_decode_eq {w : Value} {i : Instr} (h : decode w = i) : w.val = (encode i).val := by
  rw [← h, encode_decode]

/-- A step on a halted machine answers the machine as it is (41_instruction_cycle.md R111). -/
theorem step_of_halted {s : State} (h : s.halt = true) : step s = .next s := by
  simp [step, cycle, h]

/-- A step on a machine that is neither halted nor faulted is the execution of the fetched word's instruction. -/
theorem step_of_running {s : State} (hh : s.halt = false) (hf : s.fault = none) :
    step s = exec (decode (s.memory.read s.C)) s := by
  simp [step, cycle, hh, hf]

/-- What a completed step did: nothing to a halted machine, or the effect of the instruction fetched. -/
theorem step_next_iff (s t : State) : step s = .next t ↔
    (s.halt = true ∧ t = s) ∨
      (s.halt = false ∧ s.fault = none ∧ ∃ i, decode (s.memory.read s.C) = i ∧ ExecTo i s t) := by
  constructor
  · intro h
    obtain ⟨hh, ht⟩ | ⟨hh, hf, he⟩ := step_cases h
    · exact .inl ⟨hh, ht⟩
    · exact .inr ⟨hh, hf, _, rfl, (exec_next_iff _ s t).1 he⟩
  · rintro (⟨hh, rfl⟩ | ⟨hh, hf, i, rfl, he⟩)
    · exact step_of_halted hh
    · rw [step_of_running hh hf, exec_next_iff]
      exact he

/-! # Runs -/

/-- `n + 1` steps that answer are one step that answers and `n` more. -/
theorem core_run_succ_iff (n : Nat) (s t : State) :
    core.run (n + 1) s = .next t ↔ ∃ u, step s = .next u ∧ core.run n u = .next t := by
  have hcore : core.step s = step s := rfl
  simp only [Host.Core.run, hcore]
  cases step s with
  | next u => simp
  | fault f => simp
  | refused r => simp

/-- An event on a halted machine changes the queues at most, and a step not even these. -/
theorem event_of_halted {untyped : Bool} {e : Event} {s t : State} (hs : s.halt = true)
    (h : event untyped e s = .next t) :
    (∃ xs os, t = { s with inputBuffer := xs, outputBuffer := os }) ∧ (e = .step → t = s) := by
  cases e with
  | step =>
    cases (step_of_halted hs).symm.trans h
    exact ⟨⟨s.inputBuffer, s.outputBuffer, rfl⟩, fun _ => rfl⟩
  | host mv =>
    obtain ⟨xs, rfl, -, rfl⟩ | ⟨rfl, rfl⟩ := hostMove_cases h
    · exact ⟨⟨xs, s.outputBuffer, rfl⟩, nofun⟩
    · exact ⟨⟨s.inputBuffer, [], rfl⟩, nofun⟩

/-- A run on a halted machine changes the queues at most. -/
theorem run_of_halted {untyped : Bool} {es : List Event} {s t : State} (hs : s.halt = true)
    (h : run untyped es s = .next t) : ∃ xs os, t = { s with inputBuffer := xs, outputBuffer := os } := by
  refine run_keeps (P := fun u => ∃ xs os, u = { s with inputBuffer := xs, outputBuffer := os }) ?_
    ⟨s.inputBuffer, s.outputBuffer, rfl⟩ h
  rintro e _ u ⟨xs, os, rfl⟩ hu
  obtain ⟨⟨xs', os', rfl⟩, -⟩ :=
    event_of_halted (s := { s with inputBuffer := xs, outputBuffer := os }) hs hu
  exact ⟨xs', os', rfl⟩

/-- A run of steps alone leaves a halted machine as it is. -/
theorem run_steps_of_halted {untyped : Bool} {es : List Event} {s t : State} (hs : s.halt = true)
    (h : run untyped es s = .next t) (hes : ∀ e ∈ es, e = .step) : t = s := by
  induction es with
  | nil => cases h; rfl
  | cons e es ih =>
    obtain ⟨u, hu, h⟩ := run_cons_cases h
    rw [(event_of_halted hs hu).2 (hes e (by simp))] at h
    exact ih h fun e he => hes e (by simp [he])

/-! # Effects on the queues, seen from a state with another queue -/

/-- An instruction other than IN neither reads nor changes the input queue (10_state.md R29). -/
theorem ExecTo.with_inputBuffer {i : Instr} {s t : State} (h : ExecTo i s t) (hi : i ≠ .inp) (xs : List Int) :
    ExecTo i { s with inputBuffer := xs } { t with inputBuffer := xs } := by
  cases h with
  | halt => exact .halt
  | loadd => exact .loadd
  | rot => exact .rot
  | jump => exact .jump
  | nop => exact .nop
  | outHalt hA => exact .outHalt hA
  | outAppend hA => exact .outAppend hA
  | sub => exact .sub
  | inpSentinel | inpElement | inpFault => exact absurd rfl hi
  | other => exact .other

/-- From `s` to `t` some elements were appended to the output queue, and `R`, which leads from `s` to `t`, leads in the
same way from `s` with any other queue to `t` with that queue and the same elements appended. -/
def OutputBlind (R : State → State → Prop) (s t : State) : Prop :=
  ∃ emitted, t.outputBuffer = s.outputBuffer ++ emitted ∧
    ∀ o, R { s with outputBuffer := o } { t with outputBuffer := o ++ emitted }

/-- Where nothing is appended, keeping every queue is enough. -/
theorem OutputBlind.of_silent {R : State → State → Prop} {s t : State} (ht : t.outputBuffer = s.outputBuffer)
    (hR : ∀ o, R { s with outputBuffer := o } { t with outputBuffer := o }) : OutputBlind R s t := by
  refine ⟨[], by rw [ht, List.append_nil], fun o => ?_⟩
  rw [List.append_nil]
  exact hR o

/-- No instruction reads the output queue (10_state.md R30). -/
theorem ExecTo.outputBlind {i : Instr} {s t : State} (h : ExecTo i s t) : OutputBlind (ExecTo i) s t := by
  cases h with
  | halt => exact .of_silent rfl fun _ => .halt
  | loadd => exact .of_silent rfl fun _ => .loadd
  | rot => exact .of_silent rfl fun _ => .rot
  | jump => exact .of_silent rfl fun _ => .jump
  | nop => exact .of_silent rfl fun _ => .nop
  | outHalt hA => exact .of_silent rfl fun _ => .outHalt hA
  | outAppend hA => exact ⟨[s.A], rfl, fun _ => .outAppend hA⟩
  | sub => exact .of_silent rfl fun _ => .sub
  | inpSentinel hq => exact .of_silent rfl fun _ => .inpSentinel hq
  | inpElement hq => exact .of_silent rfl fun _ => .inpElement hq
  | inpFault hq hx => exact .of_silent rfl fun _ => .inpFault hq hx
  | other => exact .of_silent rfl fun _ => .other

/-- No step reads the output queue. -/
theorem step_outputBlind {s t : State} (h : step s = .next t) : OutputBlind (fun u v => step u = .next v) s t := by
  obtain ⟨hh, rfl⟩ | ⟨hh, hf, i, hi, he⟩ := (step_next_iff s t).1 h
  · exact .of_silent rfl fun _ => step_of_halted hh
  · obtain ⟨emitted, ht, ho⟩ := he.outputBlind
    exact ⟨emitted, ht, fun o => (step_next_iff _ _).2 (.inr ⟨hh, hf, i, hi, ho o⟩)⟩

/-- No run of steps reads the output queue: it emits what its first step emits, then what the others do. -/
theorem core_run_outputBlind {n : Nat} {s t : State} (h : core.run n s = .next t) :
    OutputBlind (fun u v => core.run n u = .next v) s t := by
  induction n generalizing s with
  | zero => cases h; exact .of_silent rfl fun _ => rfl
  | succ n ih =>
    obtain ⟨u, hu, h⟩ := (core_run_succ_iff n s t).1 h
    obtain ⟨first, hfirst, hstep⟩ := step_outputBlind hu
    obtain ⟨later, hlater, hrun⟩ := ih h
    refine ⟨first ++ later, by rw [hlater, hfirst, List.append_assoc], fun o => ?_⟩
    rw [← List.append_assoc]
    exact (core_run_succ_iff n _ _).2 ⟨_, hstep o, hrun (o ++ first)⟩

/-! # The loader and the reset memory -/

/-- Outside comments the command characters are the code points of the eight words (30_encoding.md R70). -/
theorem commandsOf_eq_filter (cs : List CodePoint) :
    commandsOf cs = cs.filter fun c => (commandWords.map Fin.val).contains c := rfl

theorem commandsOf_cons_command {w : Value} (hw : w ∈ commandWords) (cs : List CodePoint) :
    commandsOf (w.val :: cs) = w.val :: commandsOf cs := by
  rw [commandsOf_eq_filter, commandsOf_eq_filter, List.filter_cons_of_pos]
  simpa using ⟨w, hw, rfl⟩

theorem commandsOf_cons_noncommand {c : CodePoint} (hc : ∀ w ∈ commandWords, w.val ≠ c) (cs : List CodePoint) :
    commandsOf (c :: cs) = commandsOf cs := by
  rw [commandsOf_eq_filter, commandsOf_eq_filter, List.filter_cons_of_neg]
  simpa using hc

/-- No command character is whitespace under a set that keeps what is known of it. -/
theorem noncommand_of_whitespace {ws : CodePoint → Option Bool} (hws : RespectsKnownWs ws) {c : CodePoint}
    (hc : ws c = some true) : ∀ w ∈ commandWords, w.val ≠ c := by
  rintro w hw rfl
  have := hws _ _ (command_known hw).2
  rw [hc] at this
  cases this

/-- A scan that succeeds has appended the command characters outside comments, within the limit of R71. -/
theorem scan_ok_image {ws : CodePoint → Option Bool} (hws : RespectsKnownWs ws) {inside : Bool}
    {image r : List Value} {cs : List CodePoint} (hl : image.length ≤ 59049) (h : scan ws inside image cs = .ok r) :
    r.length ≤ 59049 ∧
      r.map (fun w => w.val) = image.map (fun w => w.val) ++ commandsOf (outsideComments inside cs) := by
  induction cs generalizing inside image with
  | nil =>
    cases inside with
    | false => cases h; exact ⟨hl, by simp [outsideComments, commandsOf]⟩
    | true => cases h
  | cons c cs ih =>
    cases inside with
    | true =>
      obtain ⟨rfl, h⟩ | ⟨h41, h⟩ := scan_inside_cases h
      · exact ih hl h
      · rw [outsideComments, if_neg h41]
        exact ih hl h
    | false =>
      obtain ⟨rfl, h⟩ | ⟨h40, hc, h⟩ | ⟨h40, -, w, hw, rfl, hne, h⟩ := scan_outside_cases h
      · exact ih hl h
      · rw [outsideComments, if_neg h40, commandsOf_cons_noncommand (noncommand_of_whitespace hws hc)]
        exact ih hl h
      · have hl' : (image ++ [w]).length ≤ 59049 := by
          rw [List.length_append, List.length_singleton]
          omega
        rw [outsideComments, if_neg h40, commandsOf_cons_command hw]
        simpa using ih hl' h

/-- Below its first address an image lists nothing. -/
theorem Memory.read_ofImage_below (vs : List Value) {i : Nat} {a : Value} (h : a.val < i) :
    (Memory.ofImage i vs).read a = blankWord :=
  Memory.read_of_forall_ne fun c hc hca => by
    have := (Memory.mem_ofImage hc).1
    rw [hca] at this
    omega

/-- From its first address upward an image reads its own words, and 0 past their end (30_encoding.md R73). -/
theorem Memory.read_ofImage (vs : List Value) {i : Nat} {a : Value} (h : i ≤ a.val) :
    (Memory.ofImage i vs).read a = (vs[a.val - i]?).getD 0 := by
  induction vs generalizing i with
  | nil => rfl
  | cons v vs ih =>
    have hi : i < 59049 := lt_of_le_of_lt h a.isLt
    rw [Memory.ofImage, if_pos hi]
    obtain rfl | hlt := Nat.eq_or_lt_of_le h
    · rw [Nat.sub_self, List.getElem?_cons_zero, Option.getD_some]
      split_ifs with hv
      · rw [Memory.read_ofImage_below vs (Nat.lt_succ_self _), hv]
      · rw [Memory.read, if_pos (wrap_of_val a)]
    · have hne : wrap i ≠ a := fun e => by
        rw [← e, wrap_val, Nat.mod_eq_of_lt hi] at hlt
        omega
      have hsub : a.val - i = (a.val - (i + 1)) + 1 := by omega
      rw [hsub, List.getElem?_cons_succ, ← ih hlt]
      split_ifs with hv
      · rfl
      · rw [Memory.read, if_neg hne]

/-! # The statements -/

/-- Settles O24: of the effects listed in `ExecTo` only those of `!` and of OUT at the sentinel set the flag. -/
theorem onlyHaltAndSentinelOutSetTheFlag : Obligations.OnlyHaltAndSentinelOutSetTheFlag := by
  intro s t h hs ht
  obtain ⟨hh, -⟩ | ⟨-, -, i, hi, he⟩ := (step_next_iff s t).1 h
  · simp [hs] at hh
  · have hw := val_of_decode_eq hi
    cases he with
    | halt => exact ⟨.inl hw, rfl⟩
    | outHalt hA => exact ⟨.inr ⟨hw, hA⟩, rfl⟩
    | _ => simp [hs] at ht

/-- Settles O26: of the effects listed in `ExecTo` only OUT's append changes the output queue. -/
theorem onlyOutWritesTheOutputQueue : Obligations.OnlyOutWritesTheOutputQueue := by
  intro s t h hne
  obtain ⟨-, rfl⟩ | ⟨-, -, i, hi, he⟩ := (step_next_iff s t).1 h
  · exact absurd rfl hne
  · cases he with
    | outAppend hA => exact ⟨val_of_decode_eq hi, rfl, by have := s.A.isLt; omega⟩
    | _ => exact absurd rfl hne

/-- Settles O27: only the two effects of IN that take an element change the queue, and a step without IN is repeated
with the other queue by `ExecTo.with_inputBuffer`. -/
theorem onlyInConsumesTheInputQueue : Obligations.OnlyInConsumesTheInputQueue := by
  intro s t h
  obtain ⟨hh, rfl⟩ | ⟨hh, hf, i, hi, he⟩ := (step_next_iff s t).1 h
  · exact ⟨fun hne => absurd rfl hne, fun _ xs => step_of_halted hh⟩
  · have hw := val_of_decode_eq hi
    constructor
    · intro hne
      cases he with
      | inpElement hq => exact ⟨hh, hw, _, hq⟩
      | inpFault hq _ => exact ⟨hh, hw, _, hq⟩
      | _ => exact absurd rfl hne
    · intro hor xs
      have hinp : i ≠ .inp := by
        rintro rfl
        obtain h125 | hh' := hor
        · exact h125 hw
        · simp [hh] at hh'
      exact (step_next_iff _ _).2 (.inr ⟨hh, hf, i, hi, he.with_inputBuffer hinp xs⟩)

/-- Settles O28: of the effects listed in `ExecTo` only those of `>`, `|` and IN change `A`; after a RangeError `A` is
its old value or the sentinel, so a changed one is the sentinel. -/
theorem onlyRotSubAndInWriteTheAccumulator : Obligations.OnlyRotSubAndInWriteTheAccumulator := by
  intro s t h hne
  obtain ⟨-, rfl⟩ | ⟨-, -, i, hi, he⟩ := (step_next_iff s t).1 h
  · exact absurd rfl hne
  · have hw := val_of_decode_eq hi
    cases he with
    | rot => exact .inl ⟨hw, rfl⟩
    | sub => exact .inr (.inl ⟨hw, rfl⟩)
    | inpSentinel hq => exact .inr (.inr ⟨hw, .inl ⟨hq, rfl⟩⟩)
    | inpElement hq => exact .inr (.inr ⟨hw, .inr (.inl ⟨_, hq⟩)⟩)
    | @inpFault _ x xs hq hx =>
      have hA := (takeRangeError_A_cases .rangeError x { s with inputBuffer := xs }).resolve_left hne
      exact .inr (.inr ⟨hw, .inr (.inr ⟨x, xs, hq, (isInDomain_eq_false_iff x).1 hx, congrArg Fin.val hA, rfl⟩)⟩)
    | _ => exact absurd rfl hne

/-- Settles O36, by the induction over runs: a halted machine's queues alone can change, and not by steps. -/
theorem haltedMachinesAreFrozen : Obligations.HaltedMachinesAreFrozen := by
  intro untyped es s t hs h
  have hsteps := run_steps_of_halted hs h
  obtain ⟨xs, os, rfl⟩ := run_of_halted hs h
  exact ⟨hs, rfl, rfl, rfl, rfl, rfl, hsteps⟩

/-- Settles O39: what a run emits does not depend on the queue that it starts with, so it serves for the given one. -/
theorem outputHasNoEffectOnTheRun : Obligations.OutputHasNoEffectOnTheRun := by
  intro n s t o h
  obtain ⟨emitted, ht, hrun⟩ := core_run_outputBlind h
  exact ⟨emitted, ht, hrun o⟩

/-- Settles O57: the scan's image at the start of a load is empty. -/
theorem loadedImageIsTheCommandsOutsideComments : Obligations.LoadedImageIsTheCommandsOutsideComments := by
  intro ws text image hws h
  exact scan_ok_image hws (Nat.zero_le _) h

/-- Settles O58: the image stands at address 0, and nothing else differs from the reset state. -/
theorem constructionGivesTheResetState : Obligations.ConstructionGivesTheResetState := by
  intro ws text image h
  refine ⟨resetWith image, by simp only [constructWith, h], fun a => ?_, rfl, rfl, rfl, rfl, rfl, rfl, rfl⟩
  exact Memory.read_ofImage image (Nat.zero_le _)

/-- Settles O31: the empty text loads to the empty image, whose memory lists nothing. -/
theorem resetIsTheEmptyProgramZeroed : Obligations.ResetIsTheEmptyProgramZeroed :=
  ⟨rfl, rfl, rfl, rfl, rfl, rfl, rfl, rfl, fun _ => rfl⟩

/-- Settles O40: the default interface checks the elements of a written queue, the untyped one does not. -/
theorem hostMovesTouchOnlyTheQueues : Obligations.HostMovesTouchOnlyTheQueues := by
  refine ⟨fun untyped xs s h => if_pos ?_, fun xs s h => if_neg ?_, fun _ _ => rfl⟩
  · simpa [isInDomain_iff] using h
  · obtain ⟨x, hx, hout⟩ := h
    simpa using ⟨x, hx, (isInDomain_eq_false_iff x).2 hout⟩

/-- Settles O49: on a `Value` each checked setter is the plain one, and outside the domain the check fails first. -/
theorem settersCheckTheDomain : Obligations.SettersCheckTheDomain := by
  constructor
  · intro v a s
    obtain ⟨hA, hC, hD, hW⟩ := assign_value v a s
    exact ⟨hA, hC, hD, storeWord a v s, hW, Memory.read_write_same _ a v,
      fun b hb => Memory.read_write_other _ a b v hb.symm, rfl⟩
  · intro x a s hx
    have hc := checkDomain_eq_error ((isInDomain_eq_false_iff x).2 hx)
    simp [assignA, assignC, assignD, assignWord, hc]

end Sys2Proof.Machine

namespace Sys2Proof.Machine

/-! # What a step does to memory (20_memory.md sections 2 and 3) -/

/-- The storing instructions are those of the words 62 and 124 (30_encoding.md R63). -/
theorem decode_storing_iff (w : Value) : decode w = .rot ∨ decode w = .sub ↔ w.val = 62 ∨ w.val = 124 := by
  constructor
  · rintro (h | h)
    · exact .inl (val_of_decode_eq h)
    · exact .inr (val_of_decode_eq h)
  · rintro (h | h)
    · exact .inl (by simp [decode, h])
    · exact .inr (by simp [decode, h])

/-- `>` and `|` write their result, which is the new `A`, at `D`; every other instruction keeps memory (R53). -/
theorem ExecTo.memory_eq {i : Instr} {s t : State} (h : ExecTo i s t) :
    t.memory = if i = .rot ∨ i = .sub then s.memory.write s.D t.A else s.memory := by
  cases h with
  | rot => exact (if_pos (.inl rfl)).symm
  | sub => exact (if_pos (.inr rfl)).symm
  | _ => exact (if_neg (by simp)).symm

/-- What a completed step leaves in memory, told by the flag and the fetched word alone. -/
theorem step_memory_eq {s t : State} (h : step s = .next t) :
    t.memory = if s.halt = false ∧ ((s.memory.read s.C).val = 62 ∨ (s.memory.read s.C).val = 124)
      then s.memory.write s.D t.A else s.memory := by
  obtain ⟨hh, rfl⟩ | ⟨hh, -, _, rfl, he⟩ := (step_next_iff s t).1 h
  · simp [hh]
  · simpa only [hh, true_and, decode_storing_iff] using he.memory_eq

/-! # Steps over a memory of no-operations (20_memory.md R46) -/

/-- The word 95 and the words outside the eight do nothing but the advance (42_control.md R122, R123): each of the
other instructions has a command word other than 95. -/
theorem exec_of_noOperation {w : Value} (hw : w.val = 95 ∨ w ∉ commandWords) (s : State) :
    exec (decode w) s = .next (advance s) := by
  have hi : encode (decode w) = w := encode_decode w
  cases h : decode w with
  | nop => rfl
  | other => rfl
  | _ =>
    rw [h] at hi
    subst hi
    exact absurd hw (by decide)

/-- The state with both pointers moved on by `n`. -/
def advanceBy (n : Nat) (s : State) : State := { s with C := incrementBy s.C n, D := incrementBy s.D n }

/-- Moving a pointer on by a multiple of the number of addresses leaves it where it was. -/
theorem incrementBy_lap (x : Value) {n : Nat} (hn : n % 59049 = 0) : incrementBy x n = x := by
  have hx := x.isLt
  apply Fin.ext
  rw [incrementBy_val]
  omega

theorem incrementBy_increment (x : Value) (n : Nat) : incrementBy (increment x) n = incrementBy x (n + 1) := by
  apply Fin.ext
  rw [incrementBy_val, incrementBy_val, increment_val]
  omega

theorem advanceBy_lap (s : State) {n : Nat} (hn : n % 59049 = 0) : advanceBy n s = s := by
  rw [advanceBy, incrementBy_lap _ hn, incrementBy_lap _ hn]

/-- Moving on by `n` from the advanced state is moving on by `n + 1`. -/
theorem advanceBy_advance (s : State) (n : Nat) : advanceBy n (advance s) = advanceBy (n + 1) s := by
  simp only [advanceBy, advance, incrementBy_increment]

/-- Over a memory of no-operations `n` steps only move the pointers on. The advanced state is again of this kind, since
the advance keeps memory, the flag and the marker. -/
theorem core_run_noOperations (n : Nat) {s : State} (hh : s.halt = false) (hf : s.fault = none)
    (hm : ∀ a : Value, (s.memory.read a).val = 95 ∨ s.memory.read a ∉ commandWords) :
    core.run n s = .next (advanceBy n s) := by
  induction n generalizing s with
  | zero => exact congrArg Host.Outcome.next (advanceBy_lap s rfl).symm
  | succ n ih =>
    have hstep : step s = .next (advance s) := by rw [step_of_running hh hf, exec_of_noOperation (hm s.C)]
    rw [core_run_succ_iff, ← advanceBy_advance]
    exact ⟨advance s, hstep, ih hh hf hm⟩

/-! # The statements about memory -/

/-- Settles O25: `step_memory_eq` writes at `D` alone, under the flag and the words named. -/
theorem onlyRotAndSubWriteMemory : Obligations.OnlyRotAndSubWriteMemory := by
  intro s t a h hne
  rw [step_memory_eq h] at hne
  split_ifs at hne with hw
  · obtain ⟨hh, hw⟩ := hw
    exact ⟨hw, by_contra fun ha => hne (Memory.read_write_other _ _ _ _ (Ne.symm ha)), hh⟩
  · exact absurd rfl hne

/-- Settles O22: the word stored is the new `A`, and the fetch in `u` reads it there. -/
theorem laterFetchSeesTheStoredWord : Obligations.LaterFetchSeesTheStoredWord := by
  intro s t u h hh hw hu hC huh huf
  have hstored : t.memory.read s.D = t.A := by
    rw [step_memory_eq h, if_pos ⟨hh, hw⟩, Memory.read_write_same]
  rw [step_of_running huh huf, hC, hu, hstored]

/-- Settles O38: the run moves the pointers on, and a whole number of laps moves them nowhere. -/
theorem lapOverNoOperationsReturns : Obligations.LapOverNoOperationsReturns := by
  intro s hh hf hm
  refine ⟨fun n => core_run_noOperations n hh hf hm, fun n hn => ?_⟩
  rw [core_run_noOperations n hh hf hm, advanceBy_lap s hn]

end Sys2Proof.Machine

namespace Sys2Proof.Machine

/-! # Decoding and encoding (30_encoding.md R61, R63, R65) -/

/-- A term of the default row is well formed when its word is none of the eight. -/
theorem wf_other_iff (w : Value) : (Instr.other w).wf = true ↔ w ∉ commandWords := by simp [Instr.wf]

/-- The decoder answers the default row with the fetched word itself. -/
theorem eq_of_decode_eq_other {w v : Value} (h : decode w = .other v) : v = w := by
  have hw := encode_decode w
  rwa [h] at hw

/-- A word decodes to the default row exactly when it is none of the eight: every other instruction has one of the eight
as its word. -/
theorem decode_eq_other_iff (w : Value) : decode w = .other w ↔ w ∉ commandWords := by
  constructor
  · intro h hw
    have hne : ∀ v ∈ commandWords, decode v ≠ .other v := by simp [commandWords, decode]
    exact hne w hw h
  · intro hw
    have hi : encode (decode w) = w := encode_decode w
    cases h : decode w with
    | other v => rw [eq_of_decode_eq_other h]
    | _ =>
      rw [h] at hi
      subst hi
      exact absurd (by decide) hw

/-- The decoder answers well-formed terms only. -/
theorem decode_wf (w : Value) : (decode w).wf = true := by
  cases h : decode w with
  | other v =>
    obtain rfl := eq_of_decode_eq_other h
    exact (wf_other_iff v).2 ((decode_eq_other_iff v).1 h)
  | _ => rfl

/-- A well-formed instruction is read back from its word. -/
theorem decode_encode {i : Instr} (hi : i.wf = true) : decode (encode i) = i := by
  cases i with
  | other w => exact (decode_eq_other_iff w).2 ((wf_other_iff w).1 hi)
  | _ => rfl

/-- What the decoder answers, told by the encoder and the check alone. -/
theorem decode_eq_iff (w : Value) (i : Instr) : decode w = i ↔ i.wf = true ∧ encode i = w := by
  constructor
  · rintro rfl
    exact ⟨decode_wf w, encode_decode w⟩
  · rintro ⟨hi, rfl⟩
    exact decode_encode hi

/-- The words of the default row are those outside the eight. -/
theorem decode_default_iff (w : Value) : (∃ v, decode w = .other v) ↔ w ∉ commandWords := by
  rw [← decode_eq_other_iff]
  constructor
  · rintro ⟨v, h⟩
    rwa [eq_of_decode_eq_other h] at h
  · exact fun h => ⟨w, h⟩

/-- 59041 of the 59049 words are of the default row: all but the eight, which are distinct. -/
theorem card_decode_default :
    (Finset.univ.filter fun w : Value => ∃ v, decode w = .other v).card = 59041 := by
  have hset : (Finset.univ.filter fun w : Value => ∃ v, decode w = .other v) = commandWords.toFinsetᶜ := by
    ext w
    rw [Finset.mem_filter, Finset.mem_compl, List.mem_toFinset, decode_default_iff]
    exact and_iff_right (Finset.mem_univ w)
  have height : commandWords.toFinset.card = 8 := List.toFinset_card_of_nodup (by decide)
  rw [hset, Finset.card_compl, Fintype.card_fin, height]

/-! # That instructions and steps complete, and the outcome of one that advances (41_instruction_cycle.md R115, R116) -/

/-- OUT and IN choose between next states; the other instructions have one effect each. -/
theorem exec_completes (i : Instr) (s : State) : ∃ t, exec i s = .next t := by
  cases i with
  | out =>
    obtain ⟨-, e⟩ | ⟨-, e⟩ := execOut_cases s
    · exact ⟨_, e⟩
    · exact ⟨_, e⟩
  | inp =>
    obtain ⟨-, e⟩ | ⟨x, xs, -, ⟨v, -, e⟩ | ⟨-, e⟩⟩ := execInp_cases s
    · exact ⟨_, e⟩
    · exact ⟨_, e⟩
    · exact ⟨_, e⟩
  | _ => exact ⟨_, rfl⟩

/-- A step that ends neither halted nor faulted has the first of the four outcomes (60_exceptions.md R164). -/
theorem stepKind_of_advanced {s t : State} (h : step s = .next t) (hs : s.halt = false) (ht : t.halt = false)
    (hf : t.fault = none) : stepKind s = some .advanced := by
  simp [stepKind, h, hs, ht, hf]

/-! # What one character does to the scan, as equations (30_encoding.md R68 to R72)

`scan_inside_cases` and `scan_outside_cases` take a scan that succeeds apart; these say what the scan answers, be it an
error or a refusal. -/

section Scan

variable {ws : CodePoint → Option Bool} {image : List Value} {c : CodePoint} (cs : List CodePoint)

theorem scan_open : scan ws false image (40 :: cs) = scan ws true image cs := rfl

theorem scan_close : scan ws true image (41 :: cs) = scan ws false image cs := rfl

theorem scan_inside (h41 : c ≠ 41) : scan ws true image (c :: cs) = scan ws true image cs := by
  simp only [scan, if_neg h41]

theorem scan_whitespace (h40 : c ≠ 40) (hc : ws c = some true) :
    scan ws false image (c :: cs) = scan ws false image cs := by
  simp only [scan, if_neg h40, hc]

theorem scan_undecided (h40 : c ≠ 40) (hc : ws c = none) :
    scan ws false image (c :: cs) = .refused (.whitespaceOpen c) := by
  simp only [scan, if_neg h40, hc]

theorem scan_invalid (h40 : c ≠ 40) (hc : ws c = some false) (hw : ∀ w ∈ commandWords, w.val ≠ c) :
    scan ws false image (c :: cs) = .syntaxError .invalidCharacter := by
  simp only [scan, if_neg h40, hc, (commandWord_eq_none_iff c).2 hw]

theorem scan_command {w : Value} (hw : w ∈ commandWords) (hc : ws w.val = some false) :
    scan ws false image (w.val :: cs) =
      if image.length = 59049 then .syntaxError .programTooLong else scan ws false (image ++ [w]) cs := by
  have hword := (commandWord_eq_some_iff w.val w).2 ⟨hw, rfl⟩
  simp only [scan, if_neg (command_known hw).1, hc, hword]

/-- Inside a comment everything before the next `)` is passed over. -/
theorem scan_inside_append {body : List CodePoint} (h : 41 ∉ body) :
    scan ws true image (body ++ cs) = scan ws true image cs := by
  induction body with
  | nil => rfl
  | cons c body ih =>
    rw [List.mem_cons, not_or] at h
    obtain ⟨hc, hbody⟩ := h
    rw [List.cons_append, scan_inside _ (Ne.symm hc), ih hbody]

end Scan

/-- A text of command characters is appended to the image as far as the limit of R71 allows. -/
theorem scan_commands {ws : CodePoint → Option Bool} (hws : RespectsKnownWs ws) {words image : List Value}
    (hw : ∀ w ∈ words, w ∈ commandWords) (hl : image.length ≤ 59049) :
    scan ws false image (words.map fun w => w.val) =
      if image.length + words.length ≤ 59049 then .ok (image ++ words) else .syntaxError .programTooLong := by
  induction words generalizing image with
  | nil => rw [if_pos (by simpa using hl), List.append_nil]; rfl
  | cons w words ih =>
    obtain ⟨hcommand, hrest⟩ := List.forall_mem_cons.1 hw
    rw [List.map_cons, scan_command _ hcommand (hws _ _ (command_known hcommand).2)]
    by_cases hfull : image.length = 59049
    · rw [if_pos hfull, if_neg (by rw [List.length_cons]; omega)]
    · have hl' : (image ++ [w]).length ≤ 59049 := by
        rw [List.length_append, List.length_singleton]
        omega
      rw [if_neg hfull, ih hrest hl', List.length_append, List.append_assoc, List.length_singleton,
        List.length_cons, List.singleton_append, Nat.add_assoc, Nat.add_comm 1]

/-! # What is known of the whitespace set (92_eei_decisions.md D4) -/

theorem knownWs_eq_true_iff (c : CodePoint) : knownWs c = some true ↔ c ∈ defaultWhitespace := by
  unfold knownWs
  split_ifs with h1 h2 <;> simpa using h1

/-- The six whitespace characters lie below U+0021. -/
theorem lt_of_mem_defaultWhitespace {c : CodePoint} (h : c ∈ defaultWhitespace) : c < 33 := by
  have hall : ∀ d ∈ defaultWhitespace, d < 33 := by decide
  exact hall c h

theorem knownWs_eq_false_iff (c : CodePoint) : knownWs c = some false ↔ 33 ≤ c ∧ c ≤ 126 := by
  unfold knownWs
  split_ifs with h1 h2
  · have hlt := lt_of_mem_defaultWhitespace (by simpa using h1)
    exact iff_of_false nofun fun hge => absurd hge.1 (Nat.not_le.2 hlt)
  · exact iff_of_true rfl h2
  · exact iff_of_false nofun h2

/-- A set that keeps what is known of `WS` differs from it on undecided characters only, and the scan under what is
known refuses the first of these that it reads. -/
theorem scan_eq_or_refused {ws : CodePoint → Option Bool} (hws : RespectsKnownWs ws) (inside : Bool)
    (image : List Value) (cs : List CodePoint) :
    scan ws inside image cs = scan knownWs inside image cs ∨ ∃ why, scan knownWs inside image cs = .refused why := by
  induction cs generalizing inside image with
  | nil => cases inside <;> exact .inl rfl
  | cons c cs ih =>
    cases inside with
    | true =>
      by_cases h41 : c = 41
      · rw [h41, scan_close, scan_close]
        exact ih false image
      · rw [scan_inside cs h41, scan_inside cs h41]
        exact ih true image
    | false =>
      by_cases h40 : c = 40
      · rw [h40, scan_open, scan_open]
        exact ih true image
      · cases hc : knownWs c with
        | none => exact .inr ⟨_, scan_undecided cs h40 hc⟩
        | some isSpace =>
          have hc' := hws c _ hc
          cases isSpace with
          | true =>
            rw [scan_whitespace cs h40 hc, scan_whitespace cs h40 hc']
            exact ih false image
          | false =>
            by_cases hw : ∃ w ∈ commandWords, w.val = c
            · obtain ⟨w, hw, rfl⟩ := hw
              rw [scan_command cs hw hc, scan_command cs hw hc']
              split_ifs
              · exact .inl rfl
              · exact ih false (image ++ [w])
            · have hno : ∀ w ∈ commandWords, w.val ≠ c := fun w hm he => hw ⟨w, hm, he⟩
              rw [scan_invalid cs h40 hc hno, scan_invalid cs h40 hc' hno]
              exact .inl rfl

/-! # The statements about the encoding and the loader -/

/-- Settles O50: the decoder inverts the encoder on well-formed terms, and answers no other terms. -/
theorem decodeAndEncodeAgree : Obligations.DecodeAndEncodeAgree :=
  ⟨fun _ => decode_encode, fun w => ⟨decode_wf w, encode_decode w⟩⟩

/-- Settles O17: a step of an unfaulted machine leaves a halted machine as it is, or is an execution. -/
theorem everyInstructionAndEveryStepCompletes : Obligations.EveryInstructionAndEveryStepCompletes := by
  refine ⟨exec_completes, fun s hf => ?_⟩
  cases hh : s.halt with
  | true => exact ⟨s, step_of_halted hh⟩
  | false => rw [step_of_running hh hf]; exact exec_completes _ s

/-- Settles O52: the words outside the eight are those of the default row, whose execution is the advance. -/
theorem everyOtherWordIsANoOperation : Obligations.EveryOtherWordIsANoOperation := by
  refine ⟨decode_eq_other_iff, card_decode_default, (decode_eq_other_iff 0).2 (by decide), fun s hh hf hw => ?_⟩
  have hstep : step s = .next (advance s) := by rw [step_of_running hh hf, exec_of_noOperation (.inr hw)]
  exact ⟨hstep, stepKind_of_advanced hstep hh hh hf, rfl⟩

/-- Settles O53: the body is passed over inside the comment that `(` opens and the first `)` closes. -/
theorem commentsAreSkipped : Obligations.CommentsAreSkipped := by
  intro ws image body rest h
  rw [scan_open, scan_inside_append _ h, scan_close]

/-- Settles O54: after the body nothing is left to close the comment. -/
theorem unterminatedCommentsFail : Obligations.UnterminatedCommentsFail := by
  intro ws image body h
  rw [scan_open, ← List.append_nil body, scan_inside_append _ h]
  rfl

/-- Settles O55: a load starts from the empty image, so that the whole limit is left for the text. -/
theorem commandTextsLoadUpToTheLimit : Obligations.CommandTextsLoadUpToTheLimit := by
  refine ⟨fun ws hws => ⟨fun words hw => ?_, fun c hc => hws c true ((knownWs_eq_true_iff c).2 hc)⟩,
    fun ws image c rest => scan_whitespace rest⟩
  have hscan := scan_commands hws hw (image := []) (Nat.zero_le _)
  rwa [List.length_nil, Nat.zero_add, List.nil_append] at hscan

/-- Settles O56: the text before hands its image on to the scan that meets the invalid character. -/
theorem firstInvalidCharacterFailsTheLoad : Obligations.FirstInvalidCharacterFailsTheLoad := by
  intro ws image scanned before rest c h h40 hc hw
  rw [scan_append _ h, scan_invalid rest h40 hc hw]

/-- Settles O60: a load that is not refused read no undecided character, and the first one read is refused. -/
theorem loaderMeaningsDoNotDependOnOpenWhitespace : Obligations.LoaderMeaningsDoNotDependOnOpenWhitespace := by
  refine ⟨fun c => ⟨knownWs_eq_true_iff c, knownWs_eq_false_iff c⟩, ?_, ?_⟩
  · rintro ws text _ hws rfl hmeaning
    obtain heq | ⟨why, hrefused⟩ := scan_eq_or_refused hws false [] text
    · exact heq
    · exact absurd hrefused (hmeaning why)
  · intro ws image scanned before rest c h h40 hc
    rw [scan_append _ h, scan_undecided rest h40 hc]

/-- Settles O51: the trits of each word are the digits of its instruction's word. -/
theorem commandWordsDecodeAsTheMapSays : Obligations.CommandWordsDecodeAsTheMapSays := by
  simp only [Obligations.CommandWordsDecodeAsTheMapSays, decode_eq_iff]
  decide

end Sys2Proof.Machine

namespace Sys2Proof.Machine

/-! # The digits of a number (00_scope.md section 6) -/

/-- What is added at place `n` or above does not show in a digit below it. -/
theorem add_mul_pow_digit {i n : Nat} (a b : Nat) (hi : i < n) : (a + b * 3 ^ n) / 3 ^ i % 3 = a / 3 ^ i % 3 := by
  obtain ⟨k, rfl⟩ := Nat.exists_eq_add_of_lt hi
  have hsplit : b * 3 ^ (i + k + 1) = 3 ^ i * (3 * (b * 3 ^ k)) := by ring
  rw [hsplit, Nat.add_mul_div_left _ _ (by positivity), Nat.add_mul_mod_self_left]

/-- What is added at place `n` to a number of `n` digits is all that stands from there on. -/
theorem add_mul_pow_div {a n : Nat} (b : Nat) (ha : a < 3 ^ n) : (a + b * 3 ^ n) / 3 ^ n = b := by
  rw [Nat.add_mul_div_right _ _ (by positivity), Nat.div_eq_of_lt ha, Nat.zero_add]

/-- A digit of a number divided by 3 is the number's next digit. -/
theorem div_three_div_pow (a i : Nat) : a / 3 / 3 ^ i = a / 3 ^ (i + 1) := by
  rw [Nat.div_div_eq_div_mul, pow_succ']

theorem fromDigits_eq_sum (f : Nat → Trit) (n : Nat) :
    fromDigits f n = ∑ i ∈ Finset.range n, (f i).val * 3 ^ i := by
  induction n with
  | zero => rfl
  | succ n ih => rw [fromDigits, ih, Finset.sum_range_succ]

/-- The digits of the number that given digits make are these digits. -/
theorem fromDigits_digit (f : Nat → Trit) {i n : Nat} (hi : i < n) : fromDigits f n / 3 ^ i % 3 = (f i).val := by
  induction n with
  | zero => exact absurd hi (Nat.not_lt_zero i)
  | succ n ih =>
    rw [fromDigits]
    obtain hlt | rfl := Nat.lt_succ_iff_lt_or_eq.1 hi
    · rw [add_mul_pow_digit _ _ hlt, ih hlt]
    · rw [add_mul_pow_div _ (fromDigits_lt f i), Nat.mod_eq_of_lt (f i).isLt]

/-- The number that the lowest `n` digits of a value make. -/
theorem fromDigits_of_digits (x : Value) (n : Nat) : fromDigits (fun i => digit i x) n = x.val % 3 ^ n := by
  induction n with
  | zero => rw [fromDigits, pow_zero, Nat.mod_one]
  | succ n ih => rw [fromDigits, ih, Nat.mod_pow_succ, digit_val, Nat.mul_comm (3 ^ n)]

/-- Ten digits make up a whole value. -/
theorem val_eq_sum_digits (x : Value) : x.val = ∑ i ∈ Finset.range 10, (digit i x).val * 3 ^ i :=
  calc x.val = x.val % 3 ^ 10 := (Nat.mod_eq_of_lt x.isLt).symm
    _ = fromDigits (fun i => digit i x) 10 := (fromDigits_of_digits x 10).symm
    _ = ∑ i ∈ Finset.range 10, (digit i x).val * 3 ^ i := fromDigits_eq_sum _ 10

/-- A value is determined by its ten digits. -/
theorem eq_of_digit_eq {x y : Value} (h : ∀ i < 10, digit i x = digit i y) : x = y := by
  apply Fin.ext
  rw [val_eq_sum_digits x, val_eq_sum_digits y]
  exact Finset.sum_congr rfl fun i hi => by rw [h i (Finset.mem_range.1 hi)]

/-! # The rotation unit (40_arithmetic_units.md section 4) -/

/-- The digit at place `i` comes from the next place, and the top one from place 0. -/
theorem digit_rotateRight {i : Nat} (hi : i < 10) (x : Value) : digit i (rotateRight x) = digit ((i + 1) % 10) x := by
  have hx : x.val / 3 < 3 ^ 9 := by have := x.isLt; omega
  apply Fin.ext
  change (x.val / 3 + x.val % 3 * 3 ^ 9) / 3 ^ i % 3 = x.val / 3 ^ ((i + 1) % 10) % 3
  obtain hlt | rfl := Nat.lt_succ_iff_lt_or_eq.1 hi
  · rw [add_mul_pow_digit _ _ hlt, div_three_div_pow, Nat.mod_eq_of_lt (by omega : i + 1 < 10)]
  · rw [add_mul_pow_div _ hx, Nat.mod_mod, Nat.mod_self, pow_zero, Nat.div_one]

/-- `n` rotations move the digits `n` places around the ring of ten. -/
theorem digit_iterate_rotateRight {i : Nat} (hi : i < 10) (n : Nat) (x : Value) :
    digit i (rotateRight^[n] x) = digit ((i + n) % 10) x := by
  induction n generalizing x with
  | zero => rw [Function.iterate_zero_apply, Nat.add_zero, Nat.mod_eq_of_lt hi]
  | succ n ih =>
    rw [Function.iterate_succ_apply, ih, digit_rotateRight (Nat.mod_lt _ (by decide)), Nat.mod_add_mod, Nat.add_assoc]

/-- Ten rotations bring every digit back to its place. -/
theorem rotateRight_isPeriodicPt_ten (x : Value) : Function.IsPeriodicPt rotateRight 10 x :=
  eq_of_digit_eq fun i hi => by rw [digit_iterate_rotateRight hi, Nat.add_mod_right, Nat.mod_eq_of_lt hi]

theorem rotateRightBy_eq_iterate (x : Value) (y : Nat) : rotateRightBy x y = rotateRight^[y] x := by
  induction y with
  | zero => rfl
  | succ y ih => rw [rotateRightBy, ih, Function.iterate_succ_apply']

theorem rotateRightBy_ten (x : Value) : rotateRightBy x 10 = x :=
  (rotateRightBy_eq_iterate x 10).trans (rotateRight_isPeriodicPt_ten x)

theorem rotateLeft_rotateRight (x : Value) : rotateLeft (rotateRight x) = x := by
  have hx := x.isLt
  apply Fin.ext
  rw [rotateLeft_val, rotateRight_val]
  omega

theorem rotateRight_rotateLeft (x : Value) : rotateRight (rotateLeft x) = x := by
  have hx := x.isLt
  apply Fin.ext
  rw [rotateRight_val, rotateLeft_val]
  omega

theorem rotateRight_bijective : Function.Bijective rotateRight :=
  Function.bijective_iff_has_inverse.2 ⟨rotateLeft, rotateLeft_rotateRight, rotateRight_rotateLeft⟩

/-- A tenth rotation undoes the other nine, so that these are the left rotation. -/
theorem rotateLeft_eq_rotateRightBy_nine (x : Value) : rotateLeft x = rotateRightBy x 9 := by
  have hten : rotateRight (rotateRightBy x 9) = x := rotateRightBy_ten x
  calc rotateLeft x = rotateLeft (rotateRight (rotateRightBy x 9)) := by rw [hten]
    _ = rotateRightBy x 9 := rotateLeft_rotateRight _

/-- With `x = 3 * q + r` a fixed point is `q = 9841 * r`, which has one solution for each trit `r`. -/
theorem rotateRight_eq_self_iff (x : Value) : rotateRight x = x ↔ x.val = 0 ∨ x.val = 29524 ∨ x.val = 59048 := by
  have hx := x.isLt
  rw [Fin.ext_iff, rotateRight_val]
  omega

/-- The minimal period divides the period ten. -/
theorem minimalPeriod_rotateRight_mem (x : Value) :
    Function.minimalPeriod rotateRight x ∈ ([1, 2, 5, 10] : List Nat) := by
  have hdvd := Nat.mem_divisors.2 ⟨(rotateRight_isPeriodicPt_ten x).minimalPeriod_dvd, by decide⟩
  rw [show Nat.divisors 10 = {1, 2, 5, 10} by decide] at hdvd
  simpa using hdvd

/-- A lowest digit 0 re-enters at the top without a trace. -/
theorem rotateRight_val_of_mod_three {x : Value} (h : x.val % 3 = 0) : (rotateRight x).val = x.val / 3 := by
  rw [rotateRight_val, h, Nat.zero_mul, Nat.add_zero]

theorem wrap_pow_val {k : Nat} (hk : k < 10) : (wrap (3 ^ k)).val = 3 ^ k :=
  Nat.mod_eq_of_lt (Nat.pow_lt_pow_right (by decide : 1 < 3) hk)

theorem rotateRight_wrap_pow_succ {k : Nat} (hk : k < 9) : rotateRight (wrap (3 ^ (k + 1))) = wrap (3 ^ k) := by
  have hval : (wrap (3 ^ (k + 1))).val = 3 ^ k * 3 := by rw [wrap_pow_val (by omega), pow_succ]
  apply Fin.ext
  rw [rotateRight_val_of_mod_three (by rw [hval, Nat.mul_mod_left]), hval, wrap_pow_val (by omega),
    Nat.mul_div_cancel _ (by decide)]

/-! # The subtraction unit (40_arithmetic_units.md section 5) -/

/-- Each digit of a difference is the one-trit cell's answer at its place. -/
theorem digit_subtract {i : Nat} (hi : i < 10) (x y : Value) :
    digit i (subtract x y) = tritSub (digit i x) (digit i y) :=
  Fin.ext (fromDigits_digit _ hi)

theorem subtract_val_eq_sum (x y : Value) : (subtract x y).val =
    ∑ i ∈ Finset.range 10, (3 + x.val / 3 ^ i % 3 - y.val / 3 ^ i % 3) % 3 * 3 ^ i := by
  rw [subtract_val, fromDigits_eq_sum]
  rfl

/-- Peeling the lowest digit `n` times forms the lowest `n` digits of the difference: after the first peel the other
digits stand one place lower, and their sum is multiplied by 3. -/
theorem subtractPeeling_eq_sum (n x y : Nat) : subtractPeeling n x y =
    ∑ i ∈ Finset.range n, (3 + x / 3 ^ i % 3 - y / 3 ^ i % 3) % 3 * 3 ^ i := by
  induction n generalizing x y with
  | zero => rfl
  | succ n ih =>
    rw [subtractPeeling, ih, Finset.sum_range_succ', Finset.mul_sum, pow_zero, Nat.div_one, Nat.div_one, Nat.mul_one,
      Nat.add_comm]
    refine congrArg (· + _) (Finset.sum_congr rfl fun i _ => ?_)
    rw [div_three_div_pow, div_three_div_pow, pow_succ]
    ring

/-! # The units on untyped integers (40_arithmetic_units.md R92, R100) -/

theorem incrementChecked_value (v : Value) (y : Nat) : incrementChecked v.val y = .ok (incrementBy v y) := by
  rw [incrementChecked, checkDomain_value]

theorem rotateRightChecked_value (v : Value) (y : Nat) : rotateRightChecked v.val y = .ok (rotateRightBy v y) := by
  rw [rotateRightChecked, checkDomain_value]

theorem subtractChecked_value (v w : Value) : subtractChecked v.val w.val = .ok (subtract v w) := by
  rw [subtractChecked, checkDomain_value, checkDomain_value]

theorem checkDomain_outside {x : Int} (hx : x < 0 ∨ 59048 < x) : checkDomain x = .error .rangeError :=
  checkDomain_eq_error ((isInDomain_eq_false_iff x).2 hx)

theorem incrementChecked_outside {x : Int} (hx : x < 0 ∨ 59048 < x) (y : Nat) :
    incrementChecked x y = .error .rangeError := by
  rw [incrementChecked, checkDomain_outside hx]

theorem rotateRightChecked_outside {x : Int} (hx : x < 0 ∨ 59048 < x) (y : Nat) :
    rotateRightChecked x y = .error .rangeError := by
  rw [rotateRightChecked, checkDomain_outside hx]

/-- The second check fails also where the first one passes. -/
theorem subtractChecked_outside {x y : Int} (h : (x < 0 ∨ 59048 < x) ∨ (y < 0 ∨ 59048 < y)) :
    subtractChecked x y = .error .rangeError := by
  obtain hx | hy := h
  · rw [subtractChecked, checkDomain_outside hx]
  · obtain ⟨-, v, -, hv⟩ | ⟨-, hx⟩ := checkDomain_cases x
    · rw [subtractChecked, hv, checkDomain_outside hy]
    · rw [subtractChecked, hx]

/-! # The statements about the arithmetic units -/

/-- Settles O42: the two ways in which the next place around the ring reads. -/
theorem rotationMovesEveryDigitDown : Obligations.RotationMovesEveryDigitDown := by
  refine fun x => ⟨digit_rotateRight (by decide) x, fun i hi => ?_⟩
  rw [digit_rotateRight (by omega), Nat.mod_eq_of_lt (by omega : i + 1 < 10)]

/-- Settles O43: an iterate at a point of period ten depends on its count modulo ten. -/
theorem rotationCountIsModuloTen : Obligations.RotationCountIsModuloTen := by
  refine fun x y => ⟨rotateRightBy_eq_iterate x y, ?_⟩
  rw [rotateRightBy_eq_iterate, rotateRightBy_eq_iterate, (rotateRight_isPeriodicPt_ten x).iterate_mod_apply]

/-- Settles O44, law by law. -/
theorem rotationLaws : Obligations.RotationLaws := by
  refine ⟨rotateRightBy_ten, ⟨rfl, rfl, rfl⟩,
    ⟨rotateRight_bijective, rotateLeft_rotateRight, rotateRight_rotateLeft, rotateLeft_eq_rotateRightBy_nine⟩,
    rotateRight_eq_self_iff, minimalPeriod_rotateRight_mem, fun _ => rotateRight_val_of_mod_three, ?_, rfl⟩
  rintro (_ | k) h1 h9
  · exact absurd h1 (by decide)
  · exact rotateRight_wrap_pow_succ h9

/-- Settles O45: the digits of a difference are read off the digits that form it. -/
theorem subtractionWorksDigitByDigit : Obligations.SubtractionWorksDigitByDigit :=
  ⟨fun x y _ hi => congrArg Fin.val (digit_subtract hi x y), subtract_val_eq_sum, subtractChecked_value,
    fun _ _ h => subtractChecked_outside (or_assoc.2 h)⟩

/-- Settles O46: both forms are the sum of the ten digits' differences. -/
theorem peelingSubtractionAgrees : Obligations.PeelingSubtractionAgrees := fun x y =>
  (subtractPeeling_eq_sum 10 x.val y.val).trans (subtract_val_eq_sum x y).symm

/-- Settles O41: below 59048 the sum is its own remainder, and at 59048 it is the modulus. -/
theorem incrementIsModular : Obligations.IncrementIsModular := by
  refine ⟨incrementChecked_value, fun _ y hx => incrementChecked_outside hx y, incrementBy_val, fun x hx => ?_,
    fun x hx => ?_⟩
  · rw [increment_val, Nat.mod_eq_of_lt (by omega)]
  · rw [increment_val, hx]

/-- Settles O48: the three checked units on the two sides of the domain check. -/
theorem unitsRejectOutOfDomainArguments : Obligations.UnitsRejectOutOfDomainArguments :=
  ⟨isInDomain_iff, fun _ y hx => ⟨incrementChecked_outside hx y, rotateRightChecked_outside hx y⟩,
    fun _ _ => subtractChecked_outside, fun v y => ⟨incrementChecked_value v y, rotateRightChecked_value v y⟩,
    subtractChecked_value⟩

end Sys2Proof.Machine

namespace Sys2Proof.Machine

/-! # How an instruction and a step end (41_instruction_cycle.md R111, R114, R115) -/

/-- An instruction ends in one of three ways: it advances the pointers that its execute phase left (R114), it halts, or
it raises RangeError; the last two keep both pointers. -/
theorem ExecTo.ends {i : Instr} {s t : State} (h : ExecTo i s t) :
    (t.halt = s.halt ∧ t.fault = s.fault ∧
        t.C = increment (if i = .jump then s.memory.read s.D else s.C) ∧
        t.D = increment (if i = .loadd then s.memory.read s.D else s.D)) ∨
      (t.halt = true ∧ t.fault = s.fault ∧ t.C = s.C ∧ t.D = s.D) ∨
      (t.halt = s.halt ∧ t.fault = some .rangeError ∧ t.C = s.C ∧ t.D = s.D) := by
  cases h with
  | halt | outHalt => exact .inr (.inl ⟨rfl, rfl, rfl, rfl⟩)
  | inpFault => exact .inr (.inr ⟨rfl, rfl, rfl, rfl⟩)
  | _ => exact .inl ⟨rfl, rfl, rfl, rfl⟩

/-- The flag is set by `!` and by OUT at the sentinel, and cleared by nothing (10_state.md R25). -/
theorem ExecTo.halt_iff {i : Instr} {s t : State} (h : ExecTo i s t) :
    t.halt = true ↔ s.halt = true ∨ i = .halt ∨ i = .out ∧ s.A.val = 59048 := by
  cases h with
  | halt => simp
  | outHalt hA => simp [hA]
  | outAppend hA => simp [hA]
  | _ => simp

/-- A word decodes to a well-formed instruction exactly when it has the number of that instruction's word. -/
theorem decode_eq_iff_val {i : Instr} (hi : i.wf = true) (w : Value) : decode w = i ↔ w.val = (encode i).val :=
  ⟨val_of_decode_eq, fun h => (decode_eq_iff w i).2 ⟨hi, Fin.ext h.symm⟩⟩

/-- When the flag is set after a step, told by the state before it (R25, R115). -/
theorem step_halt_iff {s t : State} (h : step s = .next t) :
    t.halt = true ↔ s.halt = true ∨ (s.memory.read s.C).val = 33 ∨
      (s.memory.read s.C).val = 123 ∧ s.A.val = 59048 := by
  obtain ⟨hh, rfl⟩ | ⟨-, -, _, rfl, he⟩ := (step_next_iff s t).1 h
  · simp [hh]
  · rw [he.halt_iff, decode_eq_iff_val (i := .halt) rfl, decode_eq_iff_val (i := .out) rfl]
    rfl

/-- A step that halts raises no error (R115: `!` and OUT alone halt). -/
theorem step_fault_of_haltedNow {s t : State} (h : step s = .next t) (hs : s.halt = false) (ht : t.halt = true) :
    t.fault = none := by
  obtain ⟨hh, -⟩ | ⟨-, hf, _, -, he⟩ := (step_next_iff s t).1 h
  · simp [hs] at hh
  · obtain ⟨hkeep, -⟩ | ⟨-, hfault, -⟩ | ⟨hkeep, -⟩ := he.ends
    · simp [hkeep, hs] at ht
    · rw [hfault, hf]
    · simp [hkeep, hs] at ht

/-- The outcome of a call that answers `t`, read off the two states (60_exceptions.md R164). -/
theorem stepKind_of_next {s t : State} (h : step s = .next t) :
    stepKind s = if s.halt then some .alreadyHalted else if t.halt then some .haltedNow
      else if t.fault.isSome then some .faulted else some .advanced := by
  simp only [stepKind, h]

/-- A call has the first of the four outcomes exactly when the machine was not halted and ends neither halted nor
faulted. -/
theorem stepKind_advanced_iff {s t : State} (h : step s = .next t) :
    stepKind s = some .advanced ↔ s.halt = false ∧ t.halt = false ∧ t.fault = none := by
  rw [stepKind_of_next h]
  split_ifs with hs ht hf
  · simp [hs]
  · simp [ht]
  · simp [Option.isSome_iff_ne_none.1 hf]
  · simpa [hs, ht] using hf

/-- What a call returns is told by the state that it leaves (R115): false when that is halted, else neither when it is
faulted, else true. -/
theorem result_of_stepKind {s t : State} {k : StepKind} (h : step s = .next t) (hk : stepKind s = some k) :
    k.result = if t.halt then some false else if t.fault.isSome then none else some true := by
  rw [stepKind_of_next h] at hk
  cases hs : s.halt with
  | true =>
    rw [if_pos hs] at hk
    cases hk
    rw [if_pos ((step_halt_iff h).2 (.inl hs))]
    rfl
  | false =>
    rw [hs, if_neg Bool.false_ne_true] at hk
    split_ifs at hk ⊢ <;> cases hk <;> rfl

/-! # The statements about the instruction cycle -/

/-- Settles O14: `step_of_running` with the decoded instruction named. -/
theorem stepRunsTheDecodedInstruction : Obligations.StepRunsTheDecodedInstruction := by
  rintro s _ hh hf - rfl
  exact step_of_running hh hf

/-- Settles O15: one step by `step_of_halted`, then induction on the number of steps. -/
theorem stepOnAHaltedMachineChangesNothing : Obligations.StepOnAHaltedMachineChangesNothing := by
  intro s hs
  have hstep := step_of_halted hs
  refine ⟨hstep, by rw [stepKind_of_next hstep, if_pos hs], rfl, fun n => ?_⟩
  induction n with
  | zero => rfl
  | succ n ih => exact (core_run_succ_iff n s s).2 ⟨s, hstep, ih⟩

/-- Settles O18, by the three ways in which an instruction ends: the first is the outcome `advanced`, and the other two
keep the pointers. -/
theorem advanceFollowsTheExecutePhase : Obligations.AdvanceFollowsTheExecutePhase := by
  intro s t h
  rw [Ne, stepKind_advanced_iff h]
  obtain ⟨hh, rfl⟩ | ⟨hh, hf, i, hi, he⟩ := (step_next_iff s t).1 h
  · simp [hh, StepKind.result]
  · have hjump : i = .jump ↔ (s.memory.read s.C).val = 94 := hi ▸ decode_eq_iff_val (i := .jump) rfl _
    have hloadd : i = .loadd ↔ (s.memory.read s.C).val = 42 := hi ▸ decode_eq_iff_val (i := .loadd) rfl _
    obtain ⟨hhalt, hfault, hC, hD⟩ | ⟨hhalt, -, hC, hD⟩ | ⟨-, hfault, hC, hD⟩ := he.ends
    · simp only [hjump] at hC
      simp only [hloadd] at hD
      exact ⟨fun _ => ⟨by rw [hC, increment_val], by rw [hD, increment_val]⟩,
        fun hna => absurd ⟨hh, hhalt.trans hh, hfault.trans hf⟩ hna, rfl⟩
    · exact ⟨fun ⟨_, ht, _⟩ => by simp [hhalt] at ht, fun _ => ⟨hC, hD⟩, rfl⟩
    · exact ⟨fun ⟨_, _, ht⟩ => by simp [hfault] at ht, fun _ => ⟨hC, hD⟩, rfl⟩

/-- Settles O19: the result follows the flag and the marker afterwards, and `step_halt_iff` says when the flag is
set. -/
theorem resultOfAStepTellsTheFlag : Obligations.ResultOfAStepTellsTheFlag := by
  intro s t k h hk
  have hhalt := step_halt_iff h
  rw [result_of_stepKind h hk, ← hhalt]
  cases ht : t.halt with
  | true =>
    have hfault (hs : s.halt = false) : t.fault = none := step_fault_of_haltedNow h hs ht
    simpa using hfault
  | false =>
    have hs : s.halt = false := by
      rw [← Bool.not_eq_true]
      exact fun hs => by simp [hhalt.2 (.inl hs)] at ht
    cases hf : t.fault with
    | none => simp [hs]
    | some e => simpa using hs

end Sys2Proof.Machine

namespace Sys2Proof.Machine

/-! # The control instructions (42_control.md R120 to R123) -/

/-- The advance with the increments of 41_instruction_cycle.md R114 written out. -/
theorem advance_eq_wrap (s : State) :
    advance s = { s with C := wrap (s.C.val + 1), D := wrap (s.D.val + 1) } := rfl

/-- HALT completes in the state with the flag set (R120). -/
theorem exec_halt (s : State) : exec .halt s = .next (setHalt s) := (exec_next_iff _ _ _).2 .halt

/-- JUMP completes in the advance of the state whose `C` is the word at `D` (R121). -/
theorem exec_jump (s : State) : exec .jump s = .next (advance (setC (s.memory.read s.D) s)) :=
  (exec_next_iff _ _ _).2 .jump

/-- NOP completes in the advance (R122). -/
theorem exec_nop (s : State) : exec .nop s = .next (advance s) := (exec_next_iff _ _ _).2 .nop

/-- The default row completes in the advance, whatever its word (R123). -/
theorem exec_other (w : Value) (s : State) : exec (.other w) s = .next (advance s) := (exec_next_iff _ _ _).2 .other

/-- A running machine that fetches the word 33 executes HALT. -/
theorem step_of_fetched_halt {s : State} (hh : s.halt = false) (hf : s.fault = none)
    (hw : (s.memory.read s.C).val = 33) : step s = .next (setHalt s) := by
  rw [step_of_running hh hf, (decode_eq_iff_val (i := .halt) rfl _).2 hw, exec_halt]

/-- A call that sets the flag of a running machine has the second of the four outcomes (60_exceptions.md R164). -/
theorem stepKind_of_haltedNow {s t : State} (h : step s = .next t) (hs : s.halt = false) (ht : t.halt = true) :
    stepKind s = some .haltedNow := by
  simp [stepKind_of_next h, hs, ht]

/-- A call on a halted machine has the third of the four outcomes. -/
theorem stepKind_of_halted {s : State} (hs : s.halt = true) : stepKind s = some .alreadyHalted := by
  simp [stepKind_of_next (step_of_halted hs), hs]

/-! # The statements about the control instructions -/

/-- Settles O1: the step that fetches 33 sets the flag, and the machine that it leaves is halted. -/
theorem haltSetsTheFlagAndNothingElse : Obligations.HaltSetsTheFlagAndNothingElse := by
  refine ⟨decode_encode (i := .halt) rfl, exec_halt, fun s hh hf hw => ?_⟩
  have hstep : step s = .next (setHalt s) := step_of_fetched_halt hh hf hw
  have hhalted : (setHalt s).halt = true := setHalt_halt s
  exact ⟨hstep, stepKind_of_haltedNow hstep hh hhalted, rfl,
    step_of_halted hhalted, stepKind_of_halted hhalted, rfl⟩

/-- Settles O3: the advance increments the word loaded into `C`. -/
theorem jumpLandsOnePastTheWordLoaded : Obligations.JumpLandsOnePastTheWordLoaded := by
  refine ⟨decode_encode (i := .jump) rfl, fun s => ?_⟩
  rw [exec_jump, advance_eq_wrap]
  rfl

/-- Settles O4: NOP is the advance alone. -/
theorem nopOnlyAdvances : Obligations.NopOnlyAdvances := by
  refine ⟨decode_encode (i := .nop) rfl, fun s => ?_⟩
  rw [exec_nop, advance_eq_wrap]

/-- Settles O5: the words outside the eight are those of the default row, which is the advance alone. -/
theorem otherWordsOnlyAdvance : Obligations.OtherWordsOnlyAdvance := by
  refine ⟨fun w => (decode_eq_other_iff w).2, fun w s => ?_⟩
  rw [exec_other, advance_eq_wrap]

end Sys2Proof.Machine

namespace Sys2Proof.Machine

/-! # The data instructions (43_data.md R130 to R132) -/

/-- LOADD completes in the advance of the state whose `D` is the word at `D` (R130). -/
theorem exec_loadd (s : State) : exec .loadd s = .next (advance (setD (s.memory.read s.D) s)) :=
  (exec_next_iff _ _ _).2 .loadd

/-- ROT completes in the advance of the state that stores the rotation of the word at `D` (R131). -/
theorem exec_rot (s : State) : exec .rot s = .next (advance (storeResult (rotateRight (s.memory.read s.D)) s)) :=
  (exec_next_iff _ _ _).2 .rot

/-- SUB completes in the advance of the state that stores the difference of `A` and the word at `D` (R132). -/
theorem exec_sub (s : State) : exec .sub s = .next (advance (storeResult (subtract s.A (s.memory.read s.D)) s)) :=
  (exec_next_iff _ _ _).2 .sub

/-- What ROT and SUB have in common, whatever the result `v`: both destinations hold it, and beside them only the
pointers change (41_instruction_cycle.md R114, R117 (d)). -/
theorem advance_storeResult_frame (v : Value) (s : State) :
    (advance (storeResult v s)).memory.read s.D = (advance (storeResult v s)).A ∧
      SameMemoryBut s.D s (advance (storeResult v s)) ∧ Advanced s (advance (storeResult v s)) ∧
      SameQueuesAndFlags s (advance (storeResult v s)) := by
  refine ⟨?_, fun a ha => ?_, ⟨rfl, rfl⟩, rfl, rfl, rfl, rfl⟩
  · rw [advance_memory, storeResult_memory, Memory.read_write_same, advance_A, storeResult_A]
  · rw [advance_memory, storeResult_memory, Memory.read_write_other _ _ _ _ ha.symm]

/-- A running machine that fetches the word 62 executes ROT. -/
theorem step_of_fetched_rot {s : State} (hh : s.halt = false) (hf : s.fault = none)
    (hw : (s.memory.read s.C).val = 62) : step s = exec .rot s := by
  rw [step_of_running hh hf, (decode_eq_iff_val (i := .rot) rfl _).2 hw]

/-! # The statements about the data instructions -/

/-- Settles O7: the result's digits are those of the subtraction unit, and the rest is common to ROT and SUB. -/
theorem subSubtractsTheWordAtDFromA : Obligations.SubSubtractsTheWordAtDFromA := by
  refine ⟨decode_encode (i := .sub) rfl, fun s => ⟨_, exec_sub s, fun i hi => ?_, advance_storeResult_frame _ s⟩⟩
  exact congrArg Fin.val (digit_subtract hi s.A (s.memory.read s.D))

/-- Settles O2: the advance increments the word loaded into `D`. -/
theorem loaddPointsOnePastTheWordLoaded : Obligations.LoaddPointsOnePastTheWordLoaded := by
  refine ⟨decode_encode (i := .loadd) rfl, fun s => ?_⟩
  rw [exec_loadd, advance_eq_wrap]
  rfl

/-- Settles O6: the result is the rotation unit's closed form, and the rest is common to ROT and SUB. -/
theorem rotRotatesTheWordAtD : Obligations.RotRotatesTheWordAtD :=
  ⟨decode_encode (i := .rot) rfl, fun s => ⟨_, exec_rot s, rotateRight_val _, advance_storeResult_frame _ s⟩⟩

/-- Settles O21: in lockstep the word that ROT reads and overwrites is the one just fetched, and
`62 / 3 + 62 % 3 * 19683 = 39386`. -/
theorem rotInLockstepOverwritesItself : Obligations.RotInLockstepOverwritesItself := by
  intro s hh hf hDC hw
  obtain ⟨t, hexec, hA, hstored, hothers, hadvanced, -⟩ := rotRotatesTheWordAtD.2 s
  rw [hDC] at hA hstored hothers
  refine ⟨t, (step_of_fetched_rot hh hf hw).trans hexec, ?_, hstored, hothers, hadvanced⟩
  rw [hA, hw]

end Sys2Proof.Machine

namespace Sys2Proof.Machine

/-! # The input and output instructions (44_io.md R140, R141) -/

/-- IN on the empty queue completes in the advance of the state whose `A` is the sentinel (R141). -/
theorem exec_inp_of_empty {s : State} (hq : s.inputBuffer = []) :
    exec .inp s = .next (advance (setA Config.maxValue s)) := (exec_next_iff _ _ _).2 (.inpSentinel hq)

/-- IN on an in-domain front element completes in the advance of the state whose `A` is that element, taken from the
queue (R141). -/
theorem exec_inp_of_value {s : State} {v : Value} {xs : List Int} (hq : s.inputBuffer = (v.val : Int) :: xs) :
    exec .inp s = .next (advance (setA v { s with inputBuffer := xs })) := (exec_next_iff _ _ _).2 (.inpElement hq)

/-- OUT at the sentinel completes in the state with the flag set, without append and advance (R140). -/
theorem exec_out_of_sentinel {s : State} (hA : s.A.val = 59048) : exec .out s = .next (setHalt s) :=
  (exec_next_iff _ _ _).2 (.outHalt hA)

/-- OUT of any other accumulator completes in the advance of the state with the whole of `A` appended (R140). -/
theorem exec_out_of_ne_sentinel {s : State} (hA : s.A.val ≠ 59048) :
    exec .out s = .next (advance (appendOutput s.A s)) := (exec_next_iff _ _ _).2 (.outAppend hA)

/-- A running machine that fetches the word 123 executes OUT. -/
theorem step_of_fetched_out {s : State} (hh : s.halt = false) (hf : s.fault = none)
    (hw : (s.memory.read s.C).val = 123) : step s = exec .out s := by
  rw [step_of_running hh hf, (decode_eq_iff_val (i := .out) rfl _).2 hw]

/-! # The statements about the input and output instructions -/

/-- Settles O9: the two in-domain cases of IN, each with the advance of the state it leaves written out. -/
theorem inDeliversTheFrontElementOrTheSentinel : Obligations.InDeliversTheFrontElementOrTheSentinel := by
  refine ⟨decode_encode (i := .inp) rfl, fun s hq => ?empty, fun s v xs hq => ?front⟩
  case empty =>
    rw [exec_inp_of_empty hq, advance_eq_wrap]
    rfl
  case front =>
    rw [exec_inp_of_value hq, advance_eq_wrap]
    rfl

/-- Settles O8: the two cases of OUT; the step that appends leaves the flag and the marker clear, so its outcome is
`advanced`. -/
theorem outAppendsTheAccumulatorOrHalts : Obligations.OutAppendsTheAccumulatorOrHalts := by
  refine ⟨decode_encode (i := .out) rfl, fun s => exec_out_of_sentinel, fun s hA => ?_, fun s hh hf hw => ?_⟩
  · rw [exec_out_of_ne_sentinel hA, advance_eq_wrap]
    rfl
  · have hstep : step s = exec .out s := step_of_fetched_out hh hf hw
    refine ⟨hstep, fun hA => ⟨?_, rfl⟩, fun hA => ⟨?_, rfl⟩⟩
    · exact stepKind_of_haltedNow (hstep.trans (exec_out_of_sentinel hA)) hh (setHalt_halt s)
    · exact (stepKind_advanced_iff (hstep.trans (exec_out_of_ne_sentinel hA))).2 ⟨hh, hh, hf⟩

end Sys2Proof.Machine

namespace Sys2Proof.Machine

/-! # The outcomes of a call (60_exceptions.md R164) -/

/-- A call that sets the marker of a machine that was not halted, and leaves the flag clear, has the fourth of the four
outcomes. -/
theorem stepKind_of_faulted {s t : State} {e : Fault} (h : step s = .next t) (hs : s.halt = false)
    (ht : t.halt = false) (hf : t.fault = some e) : stepKind s = some .faulted := by
  simp [stepKind_of_next h, hs, ht, hf]

/-- What a call on a machine without a fault can do, outcome by outcome, in the order of the tests in `stepKind`. -/
theorem stepKind_cases {s t : State} (h : step s = .next t) (hf : s.fault = none) :
    (stepKind s = some .alreadyHalted ∧ s.halt = true ∧ t = s) ∨
      (stepKind s = some .haltedNow ∧ s.halt = false ∧ t = { s with halt := true }) ∨
      (stepKind s = some .faulted ∧ s.halt = false ∧ t.halt = false ∧ t.fault = some .rangeError ∧
        t.C = s.C ∧ t.D = s.D) ∨
      (stepKind s = some .advanced ∧ s.halt = false ∧ t.halt = false ∧ t.fault = none) := by
  obtain ⟨hs, rfl⟩ | ⟨hs, -, _, -, he⟩ := (step_next_iff s t).1 h
  · exact .inl ⟨stepKind_of_halted hs, hs, rfl⟩
  · obtain ⟨hhalt, hfault, -⟩ | ⟨hhalt, -⟩ | ⟨hhalt, hfault, hC, hD⟩ := he.ends
    · have ht : t.halt = false := hhalt.trans hs
      have htf : t.fault = none := hfault.trans hf
      exact .inr (.inr (.inr ⟨stepKind_of_advanced h hs ht htf, hs, ht, htf⟩))
    · have htEq := (onlyHaltAndSentinelOutSetTheFlag s t h hs hhalt).2
      exact .inr (.inl ⟨stepKind_of_haltedNow h hs hhalt, hs, htEq⟩)
    · have ht : t.halt = false := hhalt.trans hs
      exact .inr (.inr (.inl ⟨stepKind_of_faulted h hs ht hfault, hs, ht, hfault, hC, hD⟩))

/-! # The statement about the outcomes -/

/-- Settles O20: the call completes, and in each of the four cases of `stepKind_cases` the flag and the marker of the
two states tell that outcome from the others; a halted state is final by `step_of_halted`. -/
theorem stepHasOneOfFourOutcomes : Obligations.StepHasOneOfFourOutcomes := by
  intro s hf
  obtain ⟨t, h⟩ := everyInstructionAndEveryStepCompletes.2 s hf
  have hfinal : t.halt = true → step t = .next t := step_of_halted
  obtain ⟨hk, hs, rfl⟩ | ⟨hk, hs, rfl⟩ | ⟨hk, hs, ht, htf, hC, hD⟩ | ⟨hk, hs, ht, htf⟩ := stepKind_cases h hf
  case inl => exact ⟨.alreadyHalted, t, hk, h, by simp [hs, hf, h]⟩
  case inr.inl => exact ⟨.haltedNow, _, hk, h, by simpa [hs, hf] using hfinal⟩
  case inr.inr.inl => exact ⟨.faulted, t, hk, h, by simp [hs, ht, htf, hC, hD]⟩
  case inr.inr.inr => exact ⟨.advanced, t, hk, h, by simp [hs, ht, htf]⟩

end Sys2Proof.Machine

namespace Sys2Proof.Machine

/-! # The marker, and the step that meets it (60_exceptions.md R154, R155, R161) -/

/-- An instruction leaves the marker set exactly when it was set before, or when it is IN on an out-of-domain front
element. -/
theorem ExecTo.fault_iff {i : Instr} {s t : State} (h : ExecTo i s t) :
    t.fault ≠ none ↔ s.fault ≠ none ∨
      i = .inp ∧ ∃ x xs, s.inputBuffer = x :: xs ∧ isInDomain x = false := by
  cases h with
  | inpSentinel hq => simp [hq]
  | inpElement hq => simp [hq]
  | inpFault hq hx => simp [hq, hx]
  | _ => simp

/-- IN on an out-of-domain front element completes in the taking of a RangeError, with the element removed (R155). -/
theorem exec_inp_of_outside {s : State} {x : Int} {xs : List Int} (hq : s.inputBuffer = x :: xs)
    (hx : isInDomain x = false) :
    exec .inp s = .next (takeRangeError .rangeError x { s with inputBuffer := xs }) :=
  (exec_next_iff _ _ _).2 (.inpFault hq hx)

/-- A machine that is faulted and not halted has no further step (R161). -/
theorem step_of_faulted {s : State} (hh : s.halt = false) {e : Fault} (hf : s.fault = some e) :
    step s = .refused .steppedAfterFault := by
  simp [step, cycle, hh, hf]

/-! # The statements about the marker -/

/-- Settles O10: the two values of `A` are those of `takeRangeError_A_cases`; every other field is kept. -/
theorem inTakesARangeErrorOutOfDomain : Obligations.InTakesARangeErrorOutOfDomain := by
  intro s x xs hq hx
  have hA := takeRangeError_A_cases .rangeError x { s with inputBuffer := xs }
  exact ⟨_, exec_inp_of_outside hq ((isInDomain_eq_false_iff x).2 hx), rfl, hA.imp_right (congrArg Fin.val),
    rfl, rfl, rfl, rfl, rfl, fun _ => rfl, rfl⟩

/-- Settles O29: a machine that steps without being halted has no marker set, so `ExecTo.fault_iff` leaves IN. -/
theorem rangeErrorComesOnlyFromInput : Obligations.RangeErrorComesOnlyFromInput := by
  intro s t h hs
  obtain ⟨hh, -⟩ | ⟨-, hf, _, rfl, he⟩ := (step_next_iff s t).1 h
  · simp [hs] at hh
  · have hinp := decode_eq_iff_val (i := .inp) rfl (s.memory.read s.C)
    simpa [hf, hinp, isInDomain_eq_false_iff, encode] using he.fault_iff

/-- Settles O16: `step_of_faulted`, for whichever error the marker holds. -/
theorem stepOnAFaultedMachineIsRefused : Obligations.StepOnAFaultedMachineIsRefused := by
  intro s hh hf
  obtain ⟨e, he⟩ := Option.ne_none_iff_exists'.1 hf
  exact step_of_faulted hh he

/-! # Both invariants, along steps, host moves and runs (10_state.md R35) -/

/-- A step keeps the invariant: it stores by `Memory.write` if at all, appends no `MAX_VALUE`, and does not both halt
and fault. -/
theorem step_keeps_inv {s t : State} (hs : s.Inv) (h : step s = .next t) : t.Inv := by
  refine ⟨?memory, ?output, ?notFinal⟩
  case memory =>
    rw [step_memory_eq h]
    split_ifs
    · exact Memory.wf_write _ _ _ hs.memory
    · exact hs.memory
  case output =>
    by_cases hout : t.outputBuffer = s.outputBuffer
    · exact hout ▸ hs.output
    · obtain ⟨-, happend, hA⟩ := onlyOutWritesTheOutputQueue s t h hout
      rw [happend]
      intro v hv
      obtain hv | hv := List.mem_append.1 hv
      · exact hs.output v hv
      · rw [List.mem_singleton.1 hv]
        omega
  case notFinal =>
    intro hf
    obtain ⟨-, rfl⟩ | ⟨hh, -⟩ := (step_next_iff s t).1 h
    · exact hs.notFinal hf
    · exact Bool.eq_false_iff.2 fun ht => hf (step_fault_of_haltedNow h hh ht)

/-- A step keeps the input in its domain, since it only removes elements, and meets no RangeError there. -/
theorem step_keeps_typed {s t : State} (hs : s.Typed) (h : step s = .next t) : t.Typed := by
  refine ⟨?input, ?noFault⟩
  case input =>
    by_cases hin : t.inputBuffer = s.inputBuffer
    · exact hin ▸ hs.input
    · obtain ⟨-, -, x, hx⟩ := (onlyInConsumesTheInputQueue s t h).1 hin
      exact fun y hy => hs.input y (hx ▸ List.mem_cons_of_mem x hy)
  case noFault =>
    obtain ⟨-, rfl⟩ | ⟨hh, -⟩ := (step_next_iff s t).1 h
    · exact hs.noFault
    · by_contra hf
      obtain ⟨-, x, xs, hq, hx⟩ := (rangeErrorComesOnlyFromInput s t h hh).1 hf
      have hdomain : isInDomain x = true := hs.input x (by simp [hq])
      simp [(isInDomain_eq_false_iff x).2 hx] at hdomain

/-- A host move touches neither memory nor the flag nor the marker, and appends no output. -/
theorem hostMove_keeps_inv {untyped : Bool} {mv : HostMove} {s t : State} (hs : s.Inv)
    (h : hostMove untyped mv s = .next t) : t.Inv := by
  obtain ⟨xs, -, -, rfl⟩ | ⟨-, rfl⟩ := hostMove_cases h
  · exact ⟨hs.memory, hs.output, hs.notFinal⟩
  · exact ⟨hs.memory, nofun, hs.notFinal⟩

/-- A host move of the default interface presents in-domain elements only (92_eei_decisions.md D6). -/
theorem hostMove_keeps_typed {mv : HostMove} {s t : State} (hs : s.Typed) (h : hostMove false mv s = .next t) :
    t.Typed := by
  obtain ⟨xs, -, hxs, rfl⟩ | ⟨-, rfl⟩ := hostMove_cases h
  · exact ⟨hxs.resolve_left nofun, hs.noFault⟩
  · exact ⟨hs.input, hs.noFault⟩

/-- An event of the default interface keeps both invariants. -/
theorem event_keeps_invariants {e : Event} {s t : State} (hs : s.Inv ∧ s.Typed) (h : event false e s = .next t) :
    t.Inv ∧ t.Typed := by
  obtain ⟨hinv, htyped⟩ := hs
  cases e with
  | step => exact ⟨step_keeps_inv hinv h, step_keeps_typed htyped h⟩
  | host mv => exact ⟨hostMove_keeps_inv hinv h, hostMove_keeps_typed htyped h⟩

/-- The reset state with any image meets both invariants: the image is canonical, the queues are empty, and neither the
flag nor the marker is set. -/
theorem resetWith_invariants (image : List Value) : (resetWith image).Inv ∧ (resetWith image).Typed :=
  ⟨⟨Memory.wf_ofImage image 0, nofun, fun _ => rfl⟩, nofun, rfl⟩

/-- A construction that succeeds answers the reset state with the image that the text loads to (30_encoding.md R73). -/
theorem constructWith_cases {ws : CodePoint → Option Bool} {text : List CodePoint} {s : State}
    (h : constructWith ws text = .ok s) : ∃ image, load ws text = .ok image ∧ s = resetWith image := by
  unfold constructWith at h
  split at h
  · cases h
    exact ⟨_, by assumption, rfl⟩
  · cases h
  · cases h

/-! # The statements about the invariants -/

/-- Settles O33. -/
theorem stepKeepsTheInvariant : Obligations.StepKeepsTheInvariant := fun _ _ => step_keeps_inv

/-- Settles O34: without a marker the step answers, and what it answers is typed again. -/
theorem typedStepsNeverFault : Obligations.TypedStepsNeverFault := by
  intro s hs
  obtain ⟨t, h⟩ := everyInstructionAndEveryStepCompletes.2 s hs.noFault
  exact ⟨t, h, step_keeps_typed hs h⟩

/-- Settles O35, by the induction over runs. -/
theorem runsOfConstructedMachinesKeepTheInvariants : Obligations.RunsOfConstructedMachinesKeepTheInvariants := by
  intro ws text es s t hs h
  obtain ⟨image, -, rfl⟩ := constructWith_cases hs
  exact run_keeps (fun _ _ _ => event_keeps_invariants) (resetWith_invariants image) h

/-- Settles O32: the reset state is the one with the empty image. -/
theorem resetMeetsTheInvariants : Obligations.ResetMeetsTheInvariants := resetWith_invariants []

end Sys2Proof.Machine

namespace Sys2Proof.Machine

/-! # The distance of the two pointers (70_reset_and_hazards.md R188) -/

/-- Incrementing both pointers keeps their distance. -/
theorem pointerDistance_of_advanced {s t : State} (h : Advanced s t) : pointerDistance t = pointerDistance s := by
  obtain ⟨hC, hD⟩ := h
  have := s.C.isLt
  have := s.D.isLt
  unfold pointerDistance
  omega

theorem pointerDistance_eq_zero_iff (s : State) : pointerDistance s = 0 ↔ s.D = s.C := by
  have := s.C.isLt
  have := s.D.isLt
  rw [pointerDistance, Fin.ext_iff]
  omega

/-- A step that executes neither `*` nor `^` advances both pointers or keeps both. -/
theorem step_keeps_pointerDistance {s t : State} (h : step s = .next t) (hloadd : (s.memory.read s.C).val ≠ 42)
    (hjump : (s.memory.read s.C).val ≠ 94) : pointerDistance t = pointerDistance s := by
  obtain ⟨hadvanced, hkept, -⟩ := advanceFollowsTheExecutePhase s t h
  by_cases hk : stepKind s = some .advanced
  · rw [if_neg hloadd, if_neg hjump] at hadvanced
    exact pointerDistance_of_advanced (hadvanced hk)
  · obtain ⟨hC, hD⟩ := hkept hk
    rw [pointerDistance, hC, hD, pointerDistance]

/-- The two pointers stay equal over an event, if it is no step of an unhalted machine that executes `*` or `^`. -/
theorem event_keeps_lockstep {untyped : Bool} {e : Event} {s t : State} (hs : s.D = s.C)
    (hword : e = .step → s.halt = false → (s.memory.read s.C).val ≠ 42 ∧ (s.memory.read s.C).val ≠ 94)
    (h : event untyped e s = .next t) : t.D = t.C := by
  cases e with
  | step =>
    obtain ⟨-, rfl⟩ | ⟨hh, -⟩ := (step_next_iff s t).1 h
    · exact hs
    · obtain ⟨hloadd, hjump⟩ := hword rfl hh
      rw [← pointerDistance_eq_zero_iff] at hs ⊢
      rw [step_keeps_pointerDistance h hloadd hjump, hs]
  | host mv =>
    obtain ⟨_, -, -, rfl⟩ | ⟨-, rfl⟩ := hostMove_cases h
    · exact hs
    · exact hs

/-- `run_keeps` for a property that a step keeps from the states of `G` only, in a run in which every state about to
step is one of `G`. -/
theorem run_keeps_where {untyped : Bool} {P G : State → Prop}
    (hP : ∀ e s t, P s → (e = .step → G s) → event untyped e s = .next t → P t) {es : List Event} {s t : State}
    (hs : P s) (hG : ∀ before after u, es = before ++ .step :: after → run untyped before s = .next u → G u)
    (h : run untyped es s = .next t) : P t := by
  induction es generalizing s with
  | nil => cases h; exact hs
  | cons e es ih =>
    obtain ⟨u, hu, h⟩ := run_cons_cases h
    have hfirst : e = .step → G s := fun he => hG [] es s (by rw [he]; rfl) rfl
    refine ih (hP e s u hs hfirst hu) (fun before after v hes hv => ?_) h
    exact hG (e :: before) after v (by rw [hes]; rfl) (by simpa only [run, hu] using hv)

/-! # The statements about the two pointers -/

/-- Settles O30. -/
theorem pointerDistanceIsKept : Obligations.PointerDistanceIsKept := fun _ _ => step_keeps_pointerDistance

/-- Settles O37: both pointers are 0 after construction, and `run_keeps_where` carries their equality along the run. -/
theorem lockstepLastsUntilAPointerLoad : Obligations.LockstepLastsUntilAPointerLoad := by
  intro untyped ws text es s t hs h hwords
  obtain ⟨image, -, rfl⟩ := constructWith_cases hs
  exact run_keeps_where (P := fun u => u.D = u.C) (fun _ _ _ => event_keeps_lockstep) rfl hwords h

end Sys2Proof.Machine

namespace Sys2Proof.Machine

/-! # The laws of the subtraction unit (40_arithmetic_units.md section 5)

Each law holds of the one-trit cell, which has nine cases, and so of every digit of a value. -/

theorem tritSub_zero (a : Trit) : tritSub a 0 = a := by revert a; decide

theorem tritSub_self (a : Trit) : tritSub a a = 0 := by revert a; decide

theorem tritSub_tritSub_right (a b : Trit) : tritSub a (tritSub a b) = b := by revert a b; decide

theorem tritSub_right_comm (a b c : Trit) : tritSub (tritSub a b) c = tritSub (tritSub a c) b := by
  revert a b c; decide

theorem tritSub_three_times (a b : Trit) : tritSub (tritSub (tritSub a b) b) b = a := by revert a b; decide

/-- Where the subtrahend is no larger, the cell is the difference of the two trits. -/
theorem tritSub_val_of_le {a b : Trit} (h : b.val ≤ a.val) : (tritSub a b).val = a.val - b.val := by
  have := a.isLt
  rw [tritSub_val]
  omega

theorem digit_zero (i : Nat) : digit i 0 = 0 := Fin.ext (by simp)

/-- Every digit of the largest value is the largest trit. -/
theorem digit_maxValue : ∀ i < 10, digit i Config.maxValue = 2 := by decide

theorem subtract_zero (x : Value) : subtract x 0 = x :=
  eq_of_digit_eq fun i hi => by rw [digit_subtract hi, digit_zero, tritSub_zero]

theorem subtract_self (x : Value) : subtract x x = 0 :=
  eq_of_digit_eq fun i hi => by rw [digit_subtract hi, tritSub_self, digit_zero]

theorem subtract_subtract_right (x y : Value) : subtract x (subtract x y) = y :=
  eq_of_digit_eq fun i hi => by rw [digit_subtract hi, digit_subtract hi, tritSub_tritSub_right]

theorem subtract_right_comm (x y z : Value) : subtract (subtract x y) z = subtract (subtract x z) y :=
  eq_of_digit_eq fun i hi => by simp only [digit_subtract hi, tritSub_right_comm _ (digit i y)]

theorem subtract_three_times (x y : Value) : subtract (subtract (subtract x y) y) y = x :=
  eq_of_digit_eq fun i hi => by simp only [digit_subtract hi, tritSub_three_times]

/-- Where no digit would borrow, the digit-wise difference is the difference of the integers. -/
theorem subtract_val_of_digit_le {x y : Value} (h : ∀ i < 10, (digit i y).val ≤ (digit i x).val) :
    (subtract x y).val = x.val - y.val := by
  have hsum : (subtract x y).val + y.val = x.val := by
    rw [val_eq_sum_digits (subtract x y), val_eq_sum_digits y, val_eq_sum_digits x, ← Finset.sum_add_distrib]
    refine Finset.sum_congr rfl fun i hi => ?_
    have hi : i < 10 := Finset.mem_range.1 hi
    rw [digit_subtract hi, tritSub_val_of_le (h i hi), ← Nat.add_mul, Nat.sub_add_cancel (h i hi)]
  omega

/-- From the largest value no digit borrows. -/
theorem subtract_maxValue_val (y : Value) : (subtract Config.maxValue y).val = 59048 - y.val :=
  subtract_val_of_digit_le fun i hi => by
    rw [digit_maxValue i hi]
    exact Nat.le_of_lt_succ (digit i y).isLt

/-- The rotation moves the digits of both arguments in the same way. -/
theorem rotateRight_subtract (x y : Value) : rotateRight (subtract x y) = subtract (rotateRight x) (rotateRight y) :=
  eq_of_digit_eq fun i hi => by
    have hnext : (i + 1) % 10 < 10 := Nat.mod_lt _ (by decide)
    rw [digit_subtract hi, digit_rotateRight hi, digit_rotateRight hi, digit_rotateRight hi, digit_subtract hnext]

/-- Two more subtractions of the same value undo one. -/
theorem subtract_left_bijective (y : Value) : Function.Bijective fun x => subtract x y :=
  Function.bijective_iff_has_inverse.2
    ⟨fun x => subtract (subtract x y) y, fun x => subtract_three_times x y, fun x => subtract_three_times x y⟩

/-- A second subtraction from the same value undoes the first. -/
theorem subtract_right_bijective (x : Value) : Function.Bijective (subtract x) :=
  Function.Involutive.bijective (subtract_subtract_right x)

/-- Settles O47, law by law; the three numeric examples are evaluated. -/
theorem subtractionLaws : Obligations.SubtractionLaws :=
  ⟨tritSub_val, subtract_zero, subtract_self, subtract_subtract_right, subtract_right_comm, subtract_three_times,
    ⟨by decide, by decide⟩, subtract_subtract_right 0,
    ⟨fun _ _ => subtract_val_of_digit_le, subtract_maxValue_val⟩, by decide, rotateRight_subtract,
    subtract_left_bijective, subtract_right_bijective⟩

end Sys2Proof.Machine

namespace Sys2Proof.Machine

/-! # The memory right after construction (10_state.md R33) -/

/-- Under any whitespace set, a scan that succeeds has appended command words only, and no more than fit in memory. -/
theorem scan_ok_commands {ws : CodePoint → Option Bool} {inside : Bool} {image r : List Value} {cs : List CodePoint}
    (himage : image ⊆ commandWords) (hl : image.length ≤ 59049) (h : scan ws inside image cs = .ok r) :
    r ⊆ commandWords ∧ r.length ≤ 59049 := by
  induction cs generalizing inside image with
  | nil =>
    cases inside with
    | false => cases h; exact ⟨himage, hl⟩
    | true => cases h
  | cons c cs ih =>
    cases inside with
    | true =>
      obtain ⟨-, h⟩ | ⟨-, h⟩ := scan_inside_cases h
      · exact ih himage hl h
      · exact ih himage hl h
    | false =>
      obtain ⟨-, h⟩ | ⟨-, -, h⟩ | ⟨-, -, w, hw, -, hne, h⟩ := scan_outside_cases h
      · exact ih himage hl h
      · exact ih himage hl h
      · refine ih (List.append_subset.2 ⟨himage, List.cons_subset.2 ⟨hw, List.nil_subset _⟩⟩) ?_ h
        rw [List.length_append, List.length_singleton]
        omega

/-- The words of a fresh memory are 0 and the command words. -/
theorem mem_resetWords_iff (w : Value) : w.val ∈ resetWords ↔ w = 0 ∨ w ∈ commandWords := by
  have hlist : resetWords = (0 : Value).val :: commandWords.map Fin.val := rfl
  rw [hlist, List.mem_cons, List.mem_map_of_injective Fin.val_injective, Fin.ext_iff]

/-- Below its length an image of command words is read as such a word, which is not 0; from there on memory reads 0. -/
theorem read_ofImage_commands {image : List Value} (himage : image ⊆ commandWords) (a : Value) :
    (a.val < image.length ∧ (Memory.ofImage 0 image).read a ∈ commandWords) ∨
      (image.length ≤ a.val ∧ (Memory.ofImage 0 image).read a = 0) := by
  rw [Memory.read_ofImage image (Nat.zero_le _), Nat.sub_zero]
  obtain hlt | hge := Nat.lt_or_ge a.val image.length
  · rw [List.getElem?_eq_getElem hlt, Option.getD_some]
    exact .inl ⟨hlt, himage (List.getElem_mem hlt)⟩
  · rw [List.getElem?_eq_none hge, Option.getD_none]
    exact .inr ⟨hge, rfl⟩

/-- Settles O59: the non-zero words are those of the loaded image, since 0 is no command word. -/
theorem resetMemoryIsAPrefixOfCommands : Obligations.ResetMemoryIsAPrefixOfCommands := by
  intro ws text s hs
  obtain ⟨image, hload, rfl⟩ := constructWith_cases hs
  obtain ⟨himage, hl⟩ := scan_ok_commands (List.nil_subset _) (Nat.zero_le _) hload
  have hread := read_ofImage_commands himage
  refine ⟨fun a => (mem_resetWords_iff _).2 ?_, image.length, hl, fun a => ?_⟩
  · obtain ⟨-, hw⟩ | ⟨-, hw⟩ := hread a
    · exact .inr hw
    · exact .inl hw
  · have hzero : (0 : Value) ∉ commandWords := by decide
    obtain ⟨hlt, hw⟩ | ⟨hge, hw⟩ := hread a
    · exact iff_of_true (Fin.val_ne_of_ne (ne_of_mem_of_not_mem hw hzero)) hlt
    · exact iff_of_false (not_not_intro (congrArg Fin.val hw)) (Nat.not_lt.2 hge)

end Sys2Proof.Machine

namespace Sys2Proof.Machine

/-! # The frames of the instructions (20_memory.md section 2), read off the effects listed in `ExecTo` -/

/-- Settles O11: `*` and `^` load one pointer each, and the others only advance. -/
theorem frameOfTheInstructionsThatStoreNothing : Obligations.FrameOfTheInstructionsThatStoreNothing := by
  intro i s t hi h
  have he := (exec_next_iff i s t).1 h
  cases he with
  | loadd => exact ⟨rfl, fun _ => rfl, ⟨rfl, rfl, rfl, rfl⟩, fun hne => absurd rfl hne, fun _ => rfl⟩
  | jump => exact ⟨rfl, fun _ => rfl, ⟨rfl, rfl, rfl, rfl⟩, fun _ => rfl, fun hne => absurd rfl hne⟩
  | nop | other => exact ⟨rfl, fun _ => rfl, ⟨rfl, rfl, rfl, rfl⟩, fun _ => rfl, fun _ => rfl⟩
  | _ => simp at hi

/-- Settles O12: both instructions have the frame of `storeResult`, whatever the result. -/
theorem frameOfTheStoringInstructions : Obligations.FrameOfTheStoringInstructions := by
  intro i s t hi h
  have he := (exec_next_iff i s t).1 h
  cases he with
  | rot | sub =>
    obtain ⟨-, hothers, ⟨-, hD⟩, hqueues⟩ := advance_storeResult_frame _ s
    refine ⟨?_, hqueues, hD⟩
    rintro _ rfl
    exact hothers
  | _ => simp at hi

/-- Settles O13: the two effects that halt keep everything else, those of IN that take a value advance, and the one that
raises RangeError does not. -/
theorem frameOfHaltAndTheIoInstructions : Obligations.FrameOfHaltAndTheIoInstructions := by
  intro i s t hi h
  have he := (exec_next_iff i s t).1 h
  cases he with
  | halt =>
    exact ⟨fun _ => rfl, fun _ => ⟨rfl, rfl, rfl⟩, fun _ => rfl, nofun, fun _ => ⟨rfl, rfl⟩, .inl ⟨rfl, rfl⟩⟩
  | outHalt =>
    exact ⟨fun _ => rfl, fun _ => ⟨rfl, rfl, rfl⟩, fun hne => absurd rfl hne, nofun, nofun, .inl ⟨rfl, rfl⟩⟩
  | outAppend =>
    exact ⟨fun _ => rfl, fun _ => ⟨rfl, rfl, rfl⟩, fun hne => absurd rfl hne, nofun, nofun, .inr ⟨rfl, rfl⟩⟩
  | inpSentinel | inpElement =>
    exact ⟨fun _ => rfl, fun hne => absurd rfl hne, fun _ => rfl, fun _ => rfl, nofun, .inr ⟨rfl, rfl⟩⟩
  | inpFault =>
    exact ⟨fun _ => rfl, fun hne => absurd rfl hne, fun _ => rfl, fun _ => rfl, nofun, .inl ⟨rfl, rfl⟩⟩
  | _ => simp at hi

/-! # The loading aid -/

/-- The number of a word of the machine decodes as that word; any other number is no word. -/
theorem decodeTableWord_eq_some_iff (nbits w : Nat) (i : Instr) :
    decodeTableWord nbits w = some i ↔ w < 59049 ∧ decode (wrap w) = i := by
  simp [decodeTableWord]

/-- The machine in which a word was placed is neither halted nor faulted, and fetches that word. -/
theorem withFetchWord_fetches (s : State) (nbits : Nat) {w : Nat} (hw : w < 59049) :
    (s.withFetchWord nbits w).halt = false ∧ (s.withFetchWord nbits w).fault = none ∧
      (s.withFetchWord nbits w).memory.read (s.withFetchWord nbits w).C = wrap w := by
  rw [State.withFetchWord, placeFetchWord, if_pos hw]
  exact ⟨rfl, rfl, Memory.read_write_same _ _ _⟩

/-- Settles O23: the step of the machine in which the word was placed is the execution of what it decodes to. -/
theorem placedWordRunsNext : Obligations.PlacedWordRunsNext := by
  intro s nbits w i h
  obtain ⟨hw, rfl⟩ := (decodeTableWord_eq_some_iff nbits w i).1 h
  obtain ⟨hhalt, hfault, hfetch⟩ := withFetchWord_fetches s nbits hw
  rw [step_of_running hhalt hfault, hfetch]

end Sys2Proof.Machine
